-- ==== Sys2Proof/Word.lean ====
section
/-! DEFINITION. The two bit-vector types of the block: 32-bit registers and 8-bit samples (spec 00_scope.md R8). -/

namespace Sys2Proof

/-- A register, a command word, or a bus word: 32 bits (R8, decision D3). -/
abbrev Word := BitVec 32

/-- A sample or a memory byte: 8 bits, unsigned (R8). -/
abbrev Byte := BitVec 8

end Sys2Proof
end

