-- ==== Sys2Proof/Config.lean ====
section
/-! DEFINITION. What an implementation fixes (`Platform`: REG_BASE and MEM_OK, spec 00_scope.md R9) and the free
values (what the spec leaves unspecified). The functions that read a platform stand in Machine/Bus.lean. -/

namespace Sys2Proof

/-- A run of `size` byte addresses from `base`. -/
structure Region where
  base : Nat
  size : Nat
deriving DecidableEq, Repr

/-- The open parameters of R9. REG_BASE is `64 * window`, so that it is a multiple of 64 by construction; MEM_OK is
the part of `regions` below 2^32. Every subset of the 2^32 addresses is a list of regions, so this is every MEM_OK.
The parameters are carried in the state, where no step changes them (log 2). -/
structure Platform where
  window : Nat
  regions : List Region
deriving DecidableEq, Repr

/-- The platform of the state after reset. DESIGN CHOICE (log 2; unsafe only for a claim about this one platform):
the window above the byte addresses, all of memory accessible. -/
def Platform.atReset : Platform := { window := 2 ^ 26, regions := [{ base := 0, size := 2 ^ 32 }] }

/-- FREE VALUE (log 6): the bytes R200 of 70_reset_and_hazards.md leaves unspecified, by draw number. -/
opaque Config.freeByte : Nat → Byte

/-- FREE VALUE (log 7): which pending unit the engine takes (R65 of 20_memory.md) once the schedule is used up. -/
opaque Config.freeIndex : Nat → Nat

end Sys2Proof
end

