-- ==== Sys2Proof/Syntax.lean ====
section
/-! DEFINITION. The five commands of the block (spec 30_encoding.md R85; spec/opcode_table.json). -/

namespace Sys2Proof

/-- One constructor per row of the opcode table. No command has an operand field: the operands are the parameter
registers (R83). -/
inductive Instr where
  /-- CSC.RGB32 (40_rgb_to_yuv.md R120, L = 0). -/
  | rgb32
  /-- CSC.RGB32.LEGACY (R120, L = 1). -/
  | rgb32Legacy
  /-- CSC.RGB24 (R125, L = 0). -/
  | rgb24
  /-- CSC.RGB24.LEGACY (R125, L = 1). -/
  | rgb24Legacy
  /-- UNPACK.YUY2 (41_yuy2_to_yuv.md R140). -/
  | yuy2
deriving DecidableEq, Repr

end Sys2Proof
end

