-- ==== Sys2Proof/Machine/State.lean ====
section
/-! DEFINITION. The state of the block, its platform memory and its hosts, as plain data, and the state after reset
(spec 10_state.md; 20_memory.md R51; 30_encoding.md R88). -/

namespace Sys2Proof.Machine

/-- The registers of the window that have a name (10_state.md R22). -/
inductive Reg where
  | cmd | status | srcAddr | yAddr | uAddr | vAddr | width | height | rgbStride | yStride | uvStride
deriving DecidableEq, Repr

/-- The nine parameter registers (R29 to R31). -/
structure Params where
  srcAddr : Word
  yAddr : Word
  uAddr : Word
  vAddr : Word
  width : Word
  height : Word
  rgbStride : Word
  yStride : Word
  uvStride : Word
deriving DecidableEq, Repr

/-- The fields of STATUS (R24). The reserved bits are no storage: they read 0 (`Status.toWord`). -/
structure Status where
  busy : Bool
  done : Bool
  err : Bool
  ovr : Bool
  errCode : BitVec 4
deriving DecidableEq, Repr

/-- The operation of a job (R33). -/
inductive Op where
  | rgb32 | rgb24 | yuy2
deriving DecidableEq, Repr

/-- The job latch (R33). The numbers are exact naturals (00_scope.md R10). -/
structure Job where
  op : Op
  legacy : Bool
  src : Nat
  y : Nat
  u : Nat
  v : Nat
  w : Nat
  h : Nat
  rs : Nat
  ys : Nat
  uvs : Nat
deriving DecidableEq, Repr

/-- A unit of a job (R34): the pixel `(row, col)` of an RGB job, the macropixel `(row, col)` of a YUY2 job. -/
structure WorkUnit where
  row : Nat
  col : Nat
deriving DecidableEq, Repr

/-- The reasons of the model-only fault record (R37; 60_exceptions.md R169; 70_reset_and_hazards.md R200). -/
inductive FaultReason where
  | preDim | preStride | preRange | preAlias | hzWrite
deriving DecidableEq, Repr

/-- The error codes of 60_exceptions.md R163. -/
inductive ErrCode where
  | errCmd | errDim | errStride | errRange | errAlias
deriving DecidableEq, Repr

/-- A statement of a host script (30_encoding.md R88). A register access carries its bus address and its width in
bytes, so that the accesses 20_memory.md R70 gives no meaning can be written too. `start M` is a `wr` to CMD; a label
is the index of a statement. `memWr` and `memRd` are the host's byte accesses to shared memory (20_memory.md R67). -/
inductive HostStmt where
  | wr (addr bytes : Nat) (value : Word)
  | rd (addr bytes : Nat) (temp : Nat)
  | bnz (temp : Nat) (mask : Word) (target : Nat)
  | memWr (addr : Nat) (value : Byte)
  | memRd (addr : Nat) (temp : Nat)
deriving DecidableEq, Repr

/-- Temporaries by number: addresses strictly rising, no entry 0, an unlisted one is 0 (log 4). -/
abbrev Temps := List (Nat × Word)

/-- Shared memory, byte by byte: addresses strictly rising, no entry 0, an unlisted byte reads 0 (log 3). -/
abbrev Memory := List Host.Cell

/-- A host: its script, its place in it and its temporaries, which belong to the host and not to the block (R88). -/
structure HostAgent where
  prog : List HostStmt
  pos : Nat
  temps : Temps
deriving DecidableEq, Repr

/-- One entry of the total order of 20_memory.md R67: the next statement of host `k`; an engine step, which takes the
pending unit of that index (R65, the index being counted round); the reset input (70_reset_and_hazards.md R190); a
host access and the reset in the same instant (R192). -/
inductive Turn where
  | host (k : Nat)
  | engine (k : Nat)
  | reset
  | hostAndReset (k : Nat)
deriving DecidableEq, Repr

/-- Where the model stops with a fault. -/
inductive Fault where
  /-- A host access to shared memory at an address that does not exist: the byte addresses are 0 to 2^32 - 1
  (20_memory.md R51). Raised by `hostMemWr` and `hostMemRd`. DESIGN CHOICE, safe (log 10). -/
  | hostAddressOutsideMemory
  /-- An engine access at an address without MEM_OK. The engine may access no other (20_memory.md R51), and no job
  that passed the checks makes one (60_exceptions.md R172). Raised by `engineStep`. Safe (log 15). -/
  | engineAddressNotMemOk
deriving DecidableEq, Repr

/-- Where the model gives no meaning. -/
inductive Refusal where
  /-- An instruction whose arm has no meaning yet. No arm of this model raises it. Safe. -/
  | notModelled (mnemonic : String)
  /-- A register access that is not a whole 32-bit word (20_memory.md R70, 93 I5). Raised by `windowOffset` and, for
  a host's byte access at an address of the window (DESIGN CHOICE), by `hostMemWr` and `hostMemRd`. Safe (log 9). -/
  | notWordAccess
  /-- A register access that is not word-aligned (20_memory.md R70, 93 I5). Raised by `windowOffset`. Safe (log 9). -/
  | misalignedAccess
  /-- A register access outside the 64-byte window: not an access to this block (10_state.md R22). Raised by
  `windowOffset`. DESIGN CHOICE, safe (log 9). -/
  | outsideRegisterWindow
deriving DecidableEq, Repr

/-- The machine. `plat` holds the parameters of 00_scope.md R9; `params`, `status`, `job`, `pending` and `fault` are
the block's (10_state.md R20); `mem` is the platform's shared memory (20_memory.md R51); `hosts` are the bus masters
(00_scope.md R4). `tainted`, `sched` and `draws` are the model's own (log 6, log 1, log 7). -/
structure State where
  plat : Platform
  params : Params
  status : Status
  job : Option Job
  pending : List WorkUnit
  tainted : Bool
  fault : Option FaultReason
  mem : Memory
  hosts : List HostAgent
  sched : List Turn
  draws : Nat
deriving DecidableEq, Repr

/-- R39: every parameter register holds 0. -/
def Params.atReset : Params :=
  { srcAddr := 0, yAddr := 0, uAddr := 0, vAddr := 0, width := 0, height := 0, rgbStride := 0, yStride := 0, uvStride := 0 }

/-- R39: STATUS = 0. -/
def Status.zero : Status := { busy := false, done := false, err := false, ovr := false, errCode := 0 }

/-- The machine right after its first reset: R39 for the block, the fault record at its start (R37), and for what is
not the block's the choices of log 2, log 3 and log 4. -/
def State.reset : State :=
  { plat := Platform.atReset
    params := Params.atReset
    status := Status.zero
    job := none
    pending := []
    tainted := false
    fault := none
    mem := []
    hosts := []
    sched := []
    draws := 0 }

end Sys2Proof.Machine
end

