-- ==== Sys2Proof/Machine/Bus.lean ====
section
/-! DEFINITION. What the platform parameters say about an address, and the register map (spec 00_scope.md R9;
10_state.md R22; 20_memory.md R70). -/

namespace Sys2Proof.Machine

/-- REG_BASE: a multiple of 64 (R9). -/
def regBase (p : Platform) : Nat := 64 * p.window

/-- MEM_OK: the addresses the engine may access, all of them below 2^32 (R9). R9 wants plain memory there, and leaves
open whether the register window may lie among them. DESIGN CHOICE (log 23; safe for a claim over every platform):
the overlap is admitted, the engine then reaching the memory byte beneath the window and never a register. -/
def memOk (p : Platform) (a : Nat) : Bool :=
  decide (a < 2 ^ 32) && p.regions.any fun r => decide (r.base ≤ a) && decide (a < r.base + r.size)

/-- The 64-byte register window (R22). -/
def inWindow (p : Platform) (a : Nat) : Bool :=
  decide (regBase p ≤ a) && decide (a < regBase p + 64)

/-- The register map of R22. -/
def Reg.offset : Reg → Nat
  | .cmd => 0x00
  | .status => 0x04
  | .srcAddr => 0x08
  | .yAddr => 0x0C
  | .uAddr => 0x10
  | .vAddr => 0x14
  | .width => 0x18
  | .height => 0x1C
  | .rgbStride => 0x20
  | .yStride => 0x24
  | .uvStride => 0x28

/-- The register at an offset of the window; `none` is a reserved offset (R32). -/
def Reg.atOffset : Nat → Option Reg
  | 0x00 => some .cmd
  | 0x04 => some .status
  | 0x08 => some .srcAddr
  | 0x0C => some .yAddr
  | 0x10 => some .uAddr
  | 0x14 => some .vAddr
  | 0x18 => some .width
  | 0x1C => some .height
  | 0x20 => some .rgbStride
  | 0x24 => some .yStride
  | 0x28 => some .uvStride
  | _ => none

/-- The bus address of a register (R22). -/
def regAddr (p : Platform) (r : Reg) : Nat := regBase p + r.offset

/-- The offset of a register access, or the reason why it has no meaning: only an aligned 32-bit access inside the
window has one (R70). -/
def windowOffset (p : Platform) (addr bytes : Nat) : Except Refusal Nat :=
  if inWindow p addr = false then .error .outsideRegisterWindow
  else if bytes ≠ 4 then .error .notWordAccess
  else if (addr - regBase p) % 4 ≠ 0 then .error .misalignedAccess
  else .ok (addr - regBase p)

end Sys2Proof.Machine
end

