-- ==== Sys2Proof/Machine/Flags.lean ====
section
/-! DEFINITION. STATUS and the fault record: every way their fields change (spec 10_state.md R24 to R28, R37;
60_exceptions.md R160, R162, R163; 20_memory.md R66). The block has no other flags (R35). -/

namespace Sys2Proof.Machine

/-- The code of R163. -/
def ErrCode.toBits : ErrCode → BitVec 4
  | .errCmd => 1#4
  | .errDim => 2#4
  | .errStride => 3#4
  | .errRange => 4#4
  | .errAlias => 5#4

/-- STATUS as a read returns it, from bit 31 down: reserved 31:12, ERRCODE 11:8, reserved 7:4, OVR, ERR, DONE, BUSY
(R24). -/
def Status.toWord (st : Status) : Word :=
  (0#20 ++ st.errCode ++ 0#4 ++ BitVec.ofBool st.ovr ++ BitVec.ofBool st.err ++ BitVec.ofBool st.done ++
    BitVec.ofBool st.busy : BitVec (20 + 4 + 4 + 1 + 1 + 1 + 1))

/-- A command written while a job runs sets OVR and nothing else (R28). -/
def Status.withOvr (st : Status) : Status := { st with ovr := true }

/-- `raise Error(code)` (R162): ERR and ERRCODE are written. -/
def Status.withError (st : Status) (c : ErrCode) : Status := { st with err := true, errCode := c.toBits }

/-- A job starts: BUSY <- 1 (R160). -/
def Status.withBusy (st : Status) : Status := { st with busy := true }

/-- The completion step: BUSY <- 0, DONE <- 1 (R66). OVR stays (R28). -/
def Status.completed (st : Status) : Status := { st with busy := false, done := true }

/-- `fault(reason)`: once set the record is never cleared (R37). It keeps the FIRST reason. DESIGN CHOICE (log 5;
safe: no claim holds of a run with a fault record, whichever reason it names). -/
def keepFirstFault (f : Option FaultReason) (r : FaultReason) : Option FaultReason :=
  match f with
  | none => some r
  | some r' => some r'

end Sys2Proof.Machine
end

