-- ==== Sys2Proof/Machine/Ops.lean ====
section
/-! DEFINITION. The shared operations: cells by address (memory and temporaries), the register file, accepting and
refusing a command, the fault record, the free bytes, and the reset input. -/

namespace Sys2Proof.Machine

/-- The value at an address; an unlisted one is 0. -/
def Cells.read {n : Nat} : List (Nat × BitVec n) → Nat → BitVec n
  | [], _ => 0#n
  | (k, v) :: rest, a => if k = a then v else Cells.read rest a

/-- Writing keeps the addresses strictly rising and lists no 0. -/
def Cells.write {n : Nat} : List (Nat × BitVec n) → Nat → BitVec n → List (Nat × BitVec n)
  | [], a, v => if v = 0#n then [] else [(a, v)]
  | (k, w) :: rest, a, v =>
    if a < k then (if v = 0#n then (k, w) :: rest else (a, v) :: (k, w) :: rest)
    else if a = k then (if v = 0#n then rest else (a, v) :: rest)
    else (k, w) :: Cells.write rest a v

/-- Every listed address is at least `lo`, they rise strictly, and no listed value is 0. -/
def Cells.wfFrom {n : Nat} (lo : Nat) : List (Nat × BitVec n) → Bool
  | [] => true
  | (k, v) :: rest => decide (lo ≤ k) && decide (v ≠ 0#n) && Cells.wfFrom (k + 1) rest

/-- The canonical form. -/
def Cells.wf {n : Nat} (m : List (Nat × BitVec n)) : Bool := Cells.wfFrom 0 m

/-- Memory in its canonical form: equal memories are equal lists. -/
abbrev Memory.wf (m : Memory) : Bool := Cells.wf m

/-- The writes of a unit, in order (20_memory.md R65). -/
def storeAll (m : Memory) : List (Nat × Byte) → Memory
  | [] => m
  | (a, b) :: rest => storeAll (Cells.write m a b) rest

/-- The same addresses with unspecified bytes: free values, the draws counted from `d` (70_reset_and_hazards.md R200,
log 6). -/
def freeWrites (d : Nat) : List (Nat × Byte) → List (Nat × Byte)
  | [] => []
  | (a, _) :: rest => (a, Config.freeByte d) :: freeWrites (d + 1) rest

/-- `reg[NAME]`: CMD reads 0 (10_state.md R23); no read has a side effect (20_memory.md R71). -/
def readReg (s : State) : Reg → Word
  | .cmd => 0
  | .status => s.status.toWord
  | .srcAddr => s.params.srcAddr
  | .yAddr => s.params.yAddr
  | .uAddr => s.params.uAddr
  | .vAddr => s.params.vAddr
  | .width => s.params.width
  | .height => s.params.height
  | .rgbStride => s.params.rgbStride
  | .yStride => s.params.yStride
  | .uvStride => s.params.uvStride

/-- A reserved offset reads 0 (R32, log 8). -/
def readOffset (s : State) (off : Nat) : Word :=
  match Reg.atOffset off with
  | some r => readReg s r
  | none => 0

/-- A write of a parameter register stores the whole word (R29 to R31). CMD stores nothing (R23) and a write to STATUS
is ignored (R24). -/
def Params.write (p : Params) (r : Reg) (v : Word) : Params :=
  match r with
  | .cmd => p
  | .status => p
  | .srcAddr => { p with srcAddr := v }
  | .yAddr => { p with yAddr := v }
  | .uAddr => { p with uAddr := v }
  | .vAddr => { p with vAddr := v }
  | .width => { p with width := v }
  | .height => { p with height := v }
  | .rgbStride => { p with rgbStride := v }
  | .yStride => { p with yStride := v }
  | .uvStride => { p with uvStride := v }

/-- A write of a register other than CMD: it has no effect beyond storing the value (20_memory.md R71). -/
def writeParam (s : State) (r : Reg) (v : Word) : State := { s with params := s.params.write r v }

/-- `fault(reason)` (00_scope.md R15). -/
def recordFault (s : State) (r : FaultReason) : State := { s with fault := keepFirstFault s.fault r }

/-- The block's one exceptional event, `raise Error(code)` (00_scope.md R15; 60_exceptions.md R162, R173): a status
update. It saves nothing else, changes no mode and redirects no control. -/
def raiseError (s : State) (c : ErrCode) : State := { s with status := s.status.withError c }

/-- Acceptance of a command clears DONE, ERR, OVR and ERRCODE (60_exceptions.md R160). This is also all there is to
recovering from a refusal: there is no return (R174). -/
def acceptCommand (s : State) : State := { s with status := Status.zero }

/-- A command written while BUSY = 1 is ignored and sets OVR (10_state.md R28). -/
def ignoreWhileBusy (s : State) : State := { s with status := s.status.withOvr }

/-- A precondition refusal: the fault record, then the error (60_exceptions.md R160, R169). -/
def refuseCommand (s : State) (r : FaultReason) (c : ErrCode) : State := raiseError (recordFault s r) c

/-- A reserved word written to CMD (60_exceptions.md R160, R164): ERR_CMD, and no model fault. -/
def refuseReserved (s : State) : State :=
  if s.status.busy then ignoreWhileBusy s else raiseError (acceptCommand s) .errCmd

/-- The reset input (70_reset_and_hazards.md R190, R191; 10_state.md R39): the registers take their reset values and
the job is discarded; memory and the fault record keep theirs, and the hosts are not part of the block. -/
def assertReset (s : State) : State :=
  { s with params := Params.atReset, status := Status.zero, job := none, pending := [], tainted := false }

end Sys2Proof.Machine
end

