-- ==== Sys2Proof/Machine/Csc.lean ====
section
/-! DEFINITION. The clamp and the BT.601 matrix, in exact integers with a floor shift (spec 00_scope.md R10, R11;
40_rgb_to_yuv.md R100 to R107). -/

namespace Sys2Proof.Machine

/-- `x >> n` = floor(x / 2^n) (R11). Division by a positive integer rounds down here. The floor, not the truncating
reading, by 90_conflicts.md C3 (log 11). -/
def asr (x : Int) (n : Nat) : Int := x / 2 ^ n

/-- R100. -/
def clip8 (x : Int) : Int := if x < 0 then 0 else if 255 < x then 255 else x

/-- The biased luma sum of R103. -/
def ySum (r g b : Int) : Int := r * 66 + g * 129 + b * 25 + 128

/-- The biased U sum of R104. -/
def uSum (r g b : Int) : Int := r * (-38) + g * (-74) + b * 112 + 128

/-- The biased V sum of R105. -/
def vSum (r g b : Int) : Int := r * 112 + g * (-94) + b * (-18) + 128

/-- The biased legacy V sum of R106: G twice, B never (90_conflicts.md C1, log 12). -/
def vLegacySum (r g : Int) : Int := r * 112 + g * (-94) + g * (-18) + 128

/-- R103. -/
def cscY (r g b : Int) : Int := clip8 (asr (ySum r g b) 8 + 16)

/-- R104. -/
def cscU (r g b : Int) : Int := clip8 (asr (uSum r g b) 8 + 128)

/-- R105. -/
def cscV (r g b : Int) : Int := clip8 (asr (vSum r g b) 8 + 128)

/-- R106. -/
def cscVLegacy (r g : Int) : Int := clip8 (asr (vLegacySum r g) 8 + 128)

/-- R107. -/
def cscVSel (legacy : Bool) (r g b : Int) : Int := if legacy then cscVLegacy r g else cscV r g b

/-- A channel byte as the unsigned number it is (20_memory.md R52). -/
def channel (x : Byte) : Int := x.toNat

/-- A sample in [0,255] as a byte. -/
def sample (x : Int) : Byte := BitVec.ofInt 8 x

end Sys2Proof.Machine
end

