-- ==== Sys2Proof/Machine/Operands.lean ====
section
/-! DEFINITION. The operands of a command and what its checks compute from them: the signed readings, the candidate
job, its units, its footprints, and the four precondition checks (spec 10_state.md R29 to R34; 20_memory.md R58 to R61;
60_exceptions.md R160, R165 to R168). -/

namespace Sys2Proof.Machine

/-- An operand of ERR_DIM is legal if it is even and non-negative, read signed (R30, R165). -/
def dimLegal (v : Word) : Bool := decide (0 ≤ v.toInt) && decide (v.toInt % 2 = 0)

/-- ERR_DIM is not raised (R165). -/
def dimsLegal (p : Params) : Bool := dimLegal p.width && dimLegal p.height

/-- ERR_STRIDE is not raised: each stride, read signed, is at least its tight row size; UNPACK.YUY2 has no stride
operand (R166). -/
def stridesLegal (op : Op) (p : Params) : Bool :=
  match op with
  | .yuy2 => true
  | .rgb32 =>
    decide (4 * p.width.toInt ≤ p.rgbStride.toInt) && decide (p.width.toInt ≤ p.yStride.toInt) &&
      decide (p.width.toInt / 2 ≤ p.uvStride.toInt)
  | .rgb24 =>
    decide (3 * p.width.toInt ≤ p.rgbStride.toInt) && decide (p.width.toInt ≤ p.yStride.toInt) &&
      decide (p.width.toInt / 2 ≤ p.uvStride.toInt)

/-- The candidate job `J` of R160, from the registers as they stand (R33). For YUY2 the strides are the tight ones,
whatever the stride registers hold (41_yuy2_to_yuv.md R141). Only used once the dimensions and strides are legal, so
that every `toInt.toNat` is exact. -/
def candidateJob (op : Op) (legacy : Bool) (p : Params) : Job :=
  let w := p.width.toInt.toNat
  { op := op
    legacy := legacy
    src := p.srcAddr.toNat
    y := p.yAddr.toNat
    u := p.uAddr.toNat
    v := p.vAddr.toNat
    w := w
    h := p.height.toInt.toNat
    rs := match op with | .yuy2 => 2 * w | .rgb32 => p.rgbStride.toInt.toNat | .rgb24 => p.rgbStride.toInt.toNat
    ys := match op with | .yuy2 => w | .rgb32 => p.yStride.toInt.toNat | .rgb24 => p.yStride.toInt.toNat
    uvs := match op with | .yuy2 => w / 2 | .rgb32 => p.uvStride.toInt.toNat | .rgb24 => p.uvStride.toInt.toNat }

/-- Units of one row: pixels, or macropixels (R34). -/
def Job.unitCols (j : Job) : Nat :=
  match j.op with
  | .rgb32 => j.w
  | .rgb24 => j.w
  | .yuy2 => j.w / 2

/-- `units(J)` (R34). -/
def Job.units (j : Job) : List WorkUnit :=
  (List.range j.h).flatMap fun i => (List.range j.unitCols).map fun k => { row := i, col := k }

/-- The byte addresses `[start, start + len)`. -/
structure Span where
  start : Nat
  len : Nat
deriving DecidableEq, Repr

/-- `rows` spans of `len` bytes, `stride` bytes apart. -/
def rowSpans (base stride rows len : Nat) : List Span :=
  (List.range rows).map fun i => { start := base + i * stride, len := len }

/-- SrcFP (20_memory.md R58, R61). -/
def Job.srcFootprint (j : Job) : List Span :=
  match j.op with
  | .rgb32 => rowSpans j.src j.rs j.h (4 * j.w)
  | .rgb24 => rowSpans j.src j.rs j.h (3 * j.w)
  | .yuy2 => [{ start := j.src, len := 2 * j.w * j.h }]

/-- YFP (R59, R61). -/
def Job.yFootprint (j : Job) : List Span :=
  match j.op with
  | .rgb32 => rowSpans j.y j.ys j.h j.w
  | .rgb24 => rowSpans j.y j.ys j.h j.w
  | .yuy2 => [{ start := j.y, len := j.w * j.h }]

/-- A chroma footprint from its base: UFP from `u`, VFP from `v` (R60, R61). -/
def Job.chromaFootprint (j : Job) (base : Nat) : List Span :=
  match j.op with
  | .rgb32 => rowSpans base j.uvs (j.h / 2) (j.w / 2)
  | .rgb24 => rowSpans base j.uvs (j.h / 2) (j.w / 2)
  | .yuy2 => [{ start := base, len := (j.w / 2) * (j.h / 2) }]

/-- UFP (R60, R61). -/
def Job.uFootprint (j : Job) : List Span := j.chromaFootprint j.u

/-- VFP (R60, R61). -/
def Job.vFootprint (j : Job) : List Span := j.chromaFootprint j.v

/-- DstFP = YFP ∪ UFP ∪ VFP (R62). -/
def Job.dstFootprint (j : Job) : List Span := j.yFootprint ++ j.uFootprint ++ j.vFootprint

/-- Is the address in the footprint? -/
def covers (f : List Span) (a : Nat) : Bool :=
  f.any fun p => decide (p.start ≤ a) && decide (a < p.start + p.len)

/-- Do the two footprints have no byte in common (R168, exact byte sets)? An empty span shares nothing. -/
def disjoint (f g : List Span) : Bool :=
  f.all fun p => g.all fun q =>
    decide (p.len = 0) || decide (q.len = 0) || decide (p.start + p.len ≤ q.start) || decide (q.start + q.len ≤ p.start)

/-- Is every byte of the footprint accessible (R167)? Addresses are exact, without wrap-around. -/
def accessible (p : Platform) (f : List Span) : Bool :=
  f.all fun q => (List.range q.len).all fun k => memOk p (q.start + k)

/-- ERR_RANGE is not raised (R167). -/
def rangeLegal (p : Platform) (j : Job) : Bool :=
  accessible p j.srcFootprint && accessible p j.yFootprint && accessible p j.uFootprint && accessible p j.vFootprint

/-- ERR_ALIAS is not raised: SrcFP, YFP, UFP, VFP are pairwise disjoint (R168). -/
def planesDisjoint (j : Job) : Bool :=
  disjoint j.srcFootprint j.yFootprint && disjoint j.srcFootprint j.uFootprint && disjoint j.srcFootprint j.vFootprint &&
    disjoint j.yFootprint j.uFootprint && disjoint j.yFootprint j.vFootprint && disjoint j.uFootprint j.vFootprint

/-- The last three assignments of R160: `job <- J; pending <- units(J); BUSY <- 1`. A new job is not tainted
(log 6). -/
def startJob (j : Job) (s : State) : State :=
  { s with job := some j, pending := j.units, status := s.status.withBusy, tainted := false }

/-- The handling of a CMD write whose word decoded to `(op, legacy)`: R160, with the checks in the order of R171. -/
def commandWrite (op : Op) (legacy : Bool) (s : State) : State :=
  if s.status.busy then ignoreWhileBusy s
  else if dimsLegal s.params = false then refuseCommand (acceptCommand s) .preDim .errDim
  else if stridesLegal op s.params = false then refuseCommand (acceptCommand s) .preStride .errStride
  else if rangeLegal s.plat (candidateJob op legacy s.params) = false then
    refuseCommand (acceptCommand s) .preRange .errRange
  else if planesDisjoint (candidateJob op legacy s.params) = false then
    refuseCommand (acceptCommand s) .preAlias .errAlias
  else startJob (candidateJob op legacy s.params) (acceptCommand s)

end Sys2Proof.Machine
end

