-- ==== Sys2Proof/Machine/Rgb.lean ====
section
/-! DEFINITION. CSC.RGB32 and CSC.RGB24: what one pixel unit reads and writes, with the 2×2 chroma subsampler, and the
meanings of the four RGB command words (spec 40_rgb_to_yuv.md R110, R111, R120, R125). -/

namespace Sys2Proof.Machine

/-- Address of byte 0 of the pixel of a unit (20_memory.md R52, R53). -/
def pixelAddr (j : Job) (bpp : Nat) (u : WorkUnit) : Nat := j.src + u.row * j.rs + bpp * u.col

/-- Address of the Y sample of a pixel (R55). -/
def rgbYAddr (j : Job) (u : WorkUnit) : Nat := j.y + u.row * j.ys + u.col

/-- Is the pixel the top-left one of its 2×2 block (R110)? -/
def carriesChroma (u : WorkUnit) : Bool := decide (u.row % 2 = 0) && decide (u.col % 2 = 0)

/-- Address of the chroma sample of a pixel in the plane at `base` (R111). -/
def rgbChromaAddr (j : Job) (base : Nat) (u : WorkUnit) : Nat := base + (u.row / 2) * j.uvs + u.col / 2

/-- The writes of a pixel of channels `r g b`: Y always, U and V at the top-left pixel of a block only, without
averaging (R110, R112). -/
def rgbWrites (j : Job) (u : WorkUnit) (r g b : Int) : List (Nat × Byte) :=
  if carriesChroma u then
    [(rgbYAddr j u, sample (cscY r g b)), (rgbChromaAddr j j.u u, sample (cscU r g b)),
      (rgbChromaAddr j j.v u, sample (cscVSel j.legacy r g b))]
  else [(rgbYAddr j u, sample (cscY r g b))]

/-- The byte addresses `unit_RGB32` reads: all four of the pixel (R120; the value of the fourth is discarded, R121). -/
def readsRgb32 (j : Job) (u : WorkUnit) : List Nat :=
  [pixelAddr j 4 u, pixelAddr j 4 u + 1, pixelAddr j 4 u + 2, pixelAddr j 4 u + 3]

/-- `unit_RGB32` (R120): B, G, R at bytes 0, 1, 2. -/
def unitRgb32 (m : Memory) (j : Job) (u : WorkUnit) : List (Nat × Byte) :=
  let p := pixelAddr j 4 u
  rgbWrites j u (channel (Cells.read m (p + 2))) (channel (Cells.read m (p + 1))) (channel (Cells.read m p))

/-- The byte addresses `unit_RGB24` reads: the three of the pixel (R125). -/
def readsRgb24 (j : Job) (u : WorkUnit) : List Nat :=
  [pixelAddr j 3 u, pixelAddr j 3 u + 1, pixelAddr j 3 u + 2]

/-- `unit_RGB24` (R125): B, G, R at bytes 0, 1, 2. -/
def unitRgb24 (m : Memory) (j : Job) (u : WorkUnit) : List (Nat × Byte) :=
  let p := pixelAddr j 3 u
  rgbWrites j u (channel (Cells.read m (p + 2))) (channel (Cells.read m (p + 1))) (channel (Cells.read m p))

/-- CSC.RGB32 written to CMD (R120, L = 0). -/
def execRgb32 (s : State) : Host.Outcome State Fault Refusal := .next (commandWrite .rgb32 false s)

/-- CSC.RGB32.LEGACY written to CMD (R120, L = 1). -/
def execRgb32Legacy (s : State) : Host.Outcome State Fault Refusal := .next (commandWrite .rgb32 true s)

/-- CSC.RGB24 written to CMD (R125, L = 0). -/
def execRgb24 (s : State) : Host.Outcome State Fault Refusal := .next (commandWrite .rgb24 false s)

/-- CSC.RGB24.LEGACY written to CMD (R125, L = 1). -/
def execRgb24Legacy (s : State) : Host.Outcome State Fault Refusal := .next (commandWrite .rgb24 true s)

end Sys2Proof.Machine
end

