-- ==== Sys2Proof/Machine/Yuy2.lean ====
section
/-! DEFINITION. UNPACK.YUY2: what one macropixel unit reads and writes, with row-drop decimation, and the meaning of
its command word (spec 41_yuy2_to_yuv.md R140 to R147). -/

namespace Sys2Proof.Machine

/-- Address of byte 0 of a macropixel: rows are tightly packed (20_memory.md R54). -/
def macroAddr (j : Job) (u : WorkUnit) : Nat := j.src + u.row * (2 * j.w) + 4 * u.col

/-- Address of the first Y sample of a macropixel (R140). -/
def yuy2YAddr (j : Job) (u : WorkUnit) : Nat := j.y + u.row * j.w + 2 * u.col

/-- Address of the chroma sample of a macropixel in the plane at `base` (R140). -/
def yuy2ChromaAddr (j : Job) (base : Nat) (u : WorkUnit) : Nat := base + (u.row / 2) * (j.w / 2) + u.col

/-- Does the row carry chroma? Even rows do; the chroma of odd rows is dropped (R142). -/
def chromaRow (u : WorkUnit) : Bool := decide (u.row % 2 = 0)

/-- The byte addresses `unit_YUY2` reads. The chroma bytes of a luma-only row are not read; whether hardware reads
them cannot be observed (R144, log 13). -/
def readsYuy2 (j : Job) (u : WorkUnit) : List Nat :=
  if chromaRow u then [macroAddr j u, macroAddr j u + 2, macroAddr j u + 1, macroAddr j u + 3]
  else [macroAddr j u, macroAddr j u + 2]

/-- `unit_YUY2` (R140): the bytes are copied verbatim, without a clamp (R143). -/
def unitYuy2 (m : Memory) (j : Job) (u : WorkUnit) : List (Nat × Byte) :=
  let p := macroAddr j u
  if chromaRow u then
    [(yuy2YAddr j u, Cells.read m p), (yuy2YAddr j u + 1, Cells.read m (p + 2)),
      (yuy2ChromaAddr j j.u u, Cells.read m (p + 1)), (yuy2ChromaAddr j j.v u, Cells.read m (p + 3))]
  else [(yuy2YAddr j u, Cells.read m p), (yuy2YAddr j u + 1, Cells.read m (p + 2))]

/-- UNPACK.YUY2 written to CMD (R140). -/
def execYuy2 (s : State) : Host.Outcome State Fault Refusal := .next (commandWrite .yuy2 false s)

end Sys2Proof.Machine
end

