-- ==== Sys2Proof/Machine/Engine.lean ====
section
/-! DEFINITION. The engine: the unit step and the completion step (spec 20_memory.md R65, R66), with the guard of R51
and the free values of 70_reset_and_hazards.md R200. -/

namespace Sys2Proof.Machine

/-- The byte addresses a unit of a job reads. -/
def unitReads (j : Job) (u : WorkUnit) : List Nat :=
  match j.op with
  | .rgb32 => readsRgb32 j u
  | .rgb24 => readsRgb24 j u
  | .yuy2 => readsYuy2 j u

/-- The writes of a unit of a job, in order, computed from memory as it stands. -/
def unitWrites (m : Memory) (j : Job) (u : WorkUnit) : List (Nat × Byte) :=
  match j.op with
  | .rgb32 => unitRgb32 m j u
  | .rgb24 => unitRgb24 m j u
  | .yuy2 => unitYuy2 m j u

/-- Does the unit access only addresses the engine may access (R51)? -/
def unitAccessOk (s : State) (j : Job) (u : WorkUnit) : Bool :=
  (unitReads j u).all (memOk s.plat) && (unitWrites s.mem j u).all fun w => memOk s.plat w.1

/-- A unit's reads and writes. Once the job is tainted by HZ_WRITE the values it writes are free (R200, log 6). -/
def performUnit (j : Job) (u : WorkUnit) (s : State) : State :=
  if s.tainted then
    { s with mem := storeAll s.mem (freeWrites s.draws (unitWrites s.mem j u))
             draws := s.draws + (unitWrites s.mem j u).length }
  else { s with mem := storeAll s.mem (unitWrites s.mem j u) }

/-- The completion step (R66): the job ceases to exist. -/
def completeJob (s : State) : State :=
  { s with status := s.status.completed, job := none, pending := [], tainted := false }

/-- Can the engine take a step? Only while BUSY = 1 (R65, R66; 60_exceptions.md R183). -/
def engineReady (s : State) : Bool := s.status.busy && s.job.isSome

/-- One engine step of a running job: the unit of index `k`, counted round, or the completion step when none is
pending (R65, R66). -/
def jobStep (j : Job) (k : Nat) (s : State) : Host.Outcome State Fault Refusal :=
  match s.pending[k % s.pending.length]? with
  | none => .next (completeJob s)
  | some u =>
    if unitAccessOk s j u then
      .next (performUnit j u { s with pending := s.pending.eraseIdx (k % s.pending.length) })
    else .fault .engineAddressNotMemOk

/-- An engine turn. Where no engine step is enabled nothing happens (R183). -/
def engineStep (k : Nat) (s : State) : Host.Outcome State Fault Refusal :=
  match s.job with
  | none => .next s
  | some j => if s.status.busy then jobStep j k s else .next s

end Sys2Proof.Machine
end

