-- ==== Sys2Proof/WellFormed.lean ====
section
/-! DEFINITION. Well-formedness: of an instruction (which has no operand to check, spec 30_encoding.md R83) and of a
command word (R80 to R82), the latter in plain arithmetic, apart from the decoder's bit fields. -/

namespace Sys2Proof

/-- No command carries an operand (R83), so every instruction is well formed. -/
def Instr.wf : Instr → Bool
  | .rgb32 => true
  | .rgb32Legacy => true
  | .rgb24 => true
  | .rgb24Legacy => true
  | .yuy2 => true

/-- R80: RES0 (bits 7:4) and RES1 (bits 31:9) are 0. -/
def CommandWord.reservedZero (w : Word) : Bool :=
  decide (w.toNat / 16 % 16 = 0) && decide (w.toNat / 512 = 0)

/-- R81: OP (bits 3:0) is 1, 2 or 3. -/
def CommandWord.opLegal (w : Word) : Bool :=
  decide (1 ≤ w.toNat % 16) && decide (w.toNat % 16 ≤ 3)

/-- R82: L (bit 8) is 0 when OP is 3. -/
def CommandWord.legacyLegal (w : Word) : Bool :=
  !(decide (w.toNat % 16 = 3) && decide (w.toNat / 256 % 2 = 1))

/-- A command word that is not reserved (R86). -/
def CommandWord.wf (w : Word) : Bool :=
  CommandWord.reservedZero w && CommandWord.opLegal w && CommandWord.legacyLegal w

end Sys2Proof
end

