-- ==== Sys2Proof/Decode.lean ====
section
/-! DEFINITION. The decoder of spec 30_encoding.md R84, total on every 32-bit word, and the encoder of R80 to R82. -/

namespace Sys2Proof

/-- OP, bits 3:0 (R80). -/
def opField (w : Word) : BitVec 4 := w.extractLsb' 0 4

/-- RES0, bits 7:4 (R80). -/
def res0Field (w : Word) : BitVec 4 := w.extractLsb' 4 4

/-- L, bit 8 (R80). -/
def legacyField (w : Word) : Bool := w.getLsbD 8

/-- RES1, bits 31:9 (R80). -/
def res1Field (w : Word) : BitVec 23 := w.extractLsb' 9 23

/-- R84. `none` is a reserved word: a nonzero reserved bit, a reserved OP, or L = 1 with OP = 3. -/
def decode (w : Word) : Option Instr :=
  if res0Field w ≠ 0#4 ∨ res1Field w ≠ 0#23 then none
  else if opField w = 0x1#4 then some (if legacyField w then .rgb32Legacy else .rgb32)
  else if opField w = 0x2#4 then some (if legacyField w then .rgb24Legacy else .rgb24)
  else if opField w = 0x3#4 then (if legacyField w then none else some .yuy2)
  else none

/-- The one format of R80: RES1, L, RES0, OP, from bit 31 down. -/
def commandWord (op : BitVec 4) (legacy : Bool) : Word :=
  (0#23 ++ BitVec.ofBool legacy ++ 0#4 ++ op : BitVec (23 + 1 + 4 + 4))

/-- R81, R82, R85. -/
def encode : Instr → Word
  | .rgb32 => commandWord 0x1#4 false
  | .rgb32Legacy => commandWord 0x1#4 true
  | .rgb24 => commandWord 0x2#4 false
  | .rgb24Legacy => commandWord 0x2#4 true
  | .yuy2 => commandWord 0x3#4 false

/-- What the decoder reads from an instruction of `nbits` bits whose bits are `w`. A command is one 32-bit word
(R80): a row of up to 32 bits is that word with the bits above `nbits` zero, and nothing is longer. -/
def decodeTableWord (nbits w : Nat) : Option Instr :=
  if nbits ≤ 32 then decode (BitVec.ofNat 32 (w % 2 ^ nbits)) else none

/-- The mnemonics of R87. -/
def Instr.mnemonic : Instr → String
  | .rgb32 => "CSC.RGB32"
  | .rgb32Legacy => "CSC.RGB32.LEGACY"
  | .rgb24 => "CSC.RGB24"
  | .rgb24Legacy => "CSC.RGB24.LEGACY"
  | .yuy2 => "UNPACK.YUY2"

end Sys2Proof
end

