-- ==== Sys2Proof/Machine/Dispatch.lean ====
section
/-! DEFINITION. The meaning of each command: the atomic handling of its word written to CMD (spec 60_exceptions.md
R160). -/

namespace Sys2Proof.Machine

def exec (i : Instr) (s : State) : Host.Outcome State Fault Refusal :=
  match i with
  | .rgb32 => Sys2Proof.Machine.execRgb32 s
  | .rgb32Legacy => Sys2Proof.Machine.execRgb32Legacy s
  | .rgb24 => Sys2Proof.Machine.execRgb24 s
  | .rgb24Legacy => Sys2Proof.Machine.execRgb24Legacy s
  | .yuy2 => Sys2Proof.Machine.execYuy2 s

end Sys2Proof.Machine
end

