-- ==== Sys2Proof/Machine/HostAgents.lean ====
section
/-! DEFINITION. The hosts: their accesses to the register window and to shared memory, and their scripts (spec
20_memory.md R67, R70, R71; 30_encoding.md R88, R89; 70_reset_and_hazards.md R200, R201). -/

namespace Sys2Proof.Machine

/-- A word written to CMD: a command that decodes has its meaning, a reserved word is refused with ERR_CMD (10_state.md
R23; 60_exceptions.md R160). -/
def cmdWrite (w : Word) (s : State) : Host.Outcome State Fault Refusal :=
  match decode w with
  | some i => exec i s
  | none => .next (refuseReserved s)

/-- A word written at an offset of the window. Writes to a reserved offset are ignored (R32, log 8). -/
def windowWrite (off : Nat) (v : Word) (s : State) : Host.Outcome State Fault Refusal :=
  match Reg.atOffset off with
  | none => .next s
  | some .cmd => cmdWrite v s
  | some r => .next (writeParam s r v)

/-- Is the byte in the source or destination footprint of the running job (R200)? -/
def inRunningFootprint (s : State) (a : Nat) : Bool :=
  s.status.busy && match s.job with
    | none => false
    | some j => covers j.srcFootprint a || covers j.dstFootprint a

/-- HZ_WRITE (R200): the fault is recorded, what the job writes from now on is unspecified, and so is the byte written:
a free value (log 6). -/
def hazardWrite (s : State) (a : Nat) : State :=
  { recordFault s .hzWrite with
      mem := Cells.write s.mem a (Config.freeByte s.draws)
      draws := s.draws + 1
      tainted := true }

/-- A host stores a byte to shared memory. Addresses are 0 to 2^32 - 1 (R51); beyond them the access faults (log 10),
and at an address of the register window it is refused (log 9, log 23). -/
def hostMemWr (a : Nat) (b : Byte) (s : State) : Host.Outcome State Fault Refusal :=
  if inWindow s.plat a then .refused .notWordAccess
  else if 2 ^ 32 ≤ a then .fault .hostAddressOutsideMemory
  else if inRunningFootprint s a then .next (hazardWrite s a)
  else .next { s with mem := Cells.write s.mem a b }

/-- The next statement, in order. -/
def HostAgent.advance (h : HostAgent) : HostAgent := { h with pos := h.pos + 1 }

/-- A value read goes into a temporary (R88). -/
def HostAgent.setTemp (h : HostAgent) (t : Nat) (v : Word) : HostAgent := { h with temps := Cells.write h.temps t v }

/-- `bnz t, mask, label` (R88). -/
def HostAgent.branch (h : HostAgent) (t : Nat) (mask : Word) (target : Nat) : HostAgent :=
  { h with pos := if Cells.read h.temps t &&& mask = 0 then h.pos + 1 else target }

/-- Host `k` is now `h`. -/
def withHost (s : State) (k : Nat) (h : HostAgent) : State := { s with hosts := s.hosts.set k h }

/-- A host reads a byte of shared memory: the byte as it stands in the one order (R67). While a job runs that is the
old or the final value of a destination byte, as its unit has run or not (R201). -/
def hostMemRd (a : Nat) (t : Nat) (k : Nat) (h : HostAgent) (s : State) : Host.Outcome State Fault Refusal :=
  if inWindow s.plat a then .refused .notWordAccess
  else if 2 ^ 32 ≤ a then .fault .hostAddressOutsideMemory
  else .next (withHost s k (h.advance.setTemp t ((Cells.read s.mem a).setWidth 32)))

/-- One statement of host `k` (R88). -/
def hostStmt (k : Nat) (h : HostAgent) (stmt : HostStmt) (s : State) : Host.Outcome State Fault Refusal :=
  match stmt with
  | .wr addr bytes v =>
    match windowOffset s.plat addr bytes with
    | .error r => .refused r
    | .ok off => windowWrite off v (withHost s k h.advance)
  | .rd addr bytes t =>
    match windowOffset s.plat addr bytes with
    | .error r => .refused r
    | .ok off => .next (withHost s k (h.advance.setTemp t (readOffset s off)))
  | .bnz t mask target => .next (withHost s k (h.branch t mask target))
  | .memWr a b => hostMemWr a b (withHost s k h.advance)
  | .memRd a t => hostMemRd a t k h s

/-- The statement a host is at; a script that has ended has none. -/
def HostAgent.current (h : HostAgent) : Option HostStmt := h.prog[h.pos]?

/-- A turn of host `k`. A host that does not exist or whose script has ended does nothing. -/
def hostStep (k : Nat) (s : State) : Host.Outcome State Fault Refusal :=
  match s.hosts[k]? with
  | none => .next s
  | some h =>
    match h.current with
    | none => .next s
    | some stmt => hostStmt k h stmt s

/-- `start MNEMONIC` (R88): the word of R85 written to CMD. -/
def startStmt (p : Platform) (i : Instr) : HostStmt := .wr (regAddr p .cmd) 4 (encode i)

/-- `wait_idle -> t` (R89), placed at statement `here`: read STATUS, and again while BUSY = 1. -/
def waitIdle (p : Platform) (here t : Nat) : List HostStmt := [.rd (regAddr p .status) 4 t, .bnz t 0x1#32 here]

/-- `run MNEMONIC -> t` (R89), placed at statement `here`. -/
def runStmts (p : Platform) (i : Instr) (here t : Nat) : List HostStmt := startStmt p i :: waitIdle p (here + 1) t

/-- `wr_params` (R89): the nine parameter registers, in the order of the window. -/
def wrParams (p : Platform) (v : Params) : List HostStmt :=
  [.wr (regAddr p .srcAddr) 4 v.srcAddr, .wr (regAddr p .yAddr) 4 v.yAddr, .wr (regAddr p .uAddr) 4 v.uAddr,
    .wr (regAddr p .vAddr) 4 v.vAddr, .wr (regAddr p .width) 4 v.width, .wr (regAddr p .height) 4 v.height,
    .wr (regAddr p .rgbStride) 4 v.rgbStride, .wr (regAddr p .yStride) 4 v.yStride, .wr (regAddr p .uvStride) 4 v.uvStride]

end Sys2Proof.Machine
end

