-- ==== Sys2Proof/Machine/Schedule.lean ====
section
/-! DEFINITION. Who steps next: the one total order of spec 20_memory.md R67, and the fairness of R66 (log 1). -/

namespace Sys2Proof.Machine

/-- The first host, counted from `k`, whose script has a statement left. -/
def firstReadyHost (k : Nat) : List HostAgent → Option Nat
  | [] => none
  | h :: rest => if h.current.isSome then some k else firstReadyHost (k + 1) rest

/-- The next turn, and the state without it. While the schedule lasts, its head. After it: the engine if it can step
(so every enabled engine step is taken in the end, R66), with a free choice of unit (R65, log 7); else the first host
with a statement left; else none, and the machine is idle (60_exceptions.md R183). -/
def takeTurn (s : State) : Option Turn × State :=
  match s.sched with
  | t :: rest => (some t, { s with sched := rest })
  | [] =>
    if engineReady s then (some (.engine (Config.freeIndex s.draws)), { s with draws := s.draws + 1 })
    else ((firstReadyHost 0 s.hosts).map .host, s)

/-- A host access and the reset input in the same instant: the access first, the reset second (70_reset_and_hazards.md
R192). -/
def hostThenReset (k : Nat) (s : State) : Host.Outcome State Fault Refusal :=
  match hostStep k s with
  | .next t => .next (assertReset t)
  | .fault r => .fault r
  | .refused r => .refused r

/-- What a turn does. -/
def runTurn (t : Option Turn) (s : State) : Host.Outcome State Fault Refusal :=
  match t with
  | none => .next s
  | some (.host k) => hostStep k s
  | some (.engine k) => engineStep k s
  | some .reset => .next (assertReset s)
  | some (.hostAndReset k) => hostThenReset k s

/-- A host whose script is the one write of the command word `w` to CMD. -/
def hostWritingCommand (p : Platform) (w : Word) : HostAgent :=
  { prog := [.wr (regAddr p .cmd) 4 w], pos := 0, temps := [] }

/-- The command word `w` is the next thing that happens: host 0 is about to write it to CMD, and the next turn is its
(log 18). -/
def withNextCommand (s : State) (w : Word) : State :=
  { s with hosts := hostWritingCommand s.plat w :: s.hosts.tail, sched := .host 0 :: s.sched }

end Sys2Proof.Machine
end

