-- ==== Sys2Proof/Machine/Step.lean ====
section
/-! DEFINITION. One step of the machine: one entry of the total order of spec 20_memory.md R67. -/

namespace Sys2Proof.Machine

/-- One step of a host, of the engine or of the reset input. -/
def step (s : State) : Host.Outcome State Fault Refusal := runTurn (takeTurn s).1 (takeTurn s).2

/-- The block fetches no instructions (R73): a program comes to run by a host writing command words to CMD, and this
is the state in which the next step does so with the table word `w` (log 18). -/
def State.withFetchWord (s : State) (nbits w : Nat) : State := withNextCommand s (BitVec.ofNat 32 (w % 2 ^ nbits))

end Sys2Proof.Machine
end

