-- ==== Sys2Proof/Safety.lean ====
section
/-! DEFINITION. The terms in which claims speak: a checked job, the machine's invariant, the progress of a running job,
and a run whose contract was not broken (spec 10_state.md R24 to R27, R33, R34, R37; 20_memory.md R62). -/

namespace Sys2Proof

/-- The operation a command selects (30_encoding.md R81). -/
def Instr.op : Instr → Machine.Op
  | .rgb32 => .rgb32
  | .rgb32Legacy => .rgb32
  | .rgb24 => .rgb24
  | .rgb24Legacy => .rgb24
  | .yuy2 => .yuy2

/-- The L field of a command (R82). -/
def Instr.legacyBit : Instr → Bool
  | .rgb32 => false
  | .rgb32Legacy => true
  | .rgb24 => false
  | .rgb24Legacy => true
  | .yuy2 => false

end Sys2Proof

namespace Sys2Proof.Machine

/-- `a` is in one of `rows` rows of `len` bytes that start `stride` apart from `base`: the unions of 20_memory.md R58
to R60, written as sets and apart from the spans the machine computes with. -/
def InRows (base stride rows len a : Nat) : Prop := ∃ i, i < rows ∧ base + i * stride ≤ a ∧ a < base + i * stride + len

/-- SrcFP (R58, R61). -/
def Job.InSrcFP (j : Job) (a : Nat) : Prop :=
  match j.op with
  | .rgb32 => InRows j.src j.rs j.h (4 * j.w) a
  | .rgb24 => InRows j.src j.rs j.h (3 * j.w) a
  | .yuy2 => j.src ≤ a ∧ a < j.src + 2 * j.w * j.h

/-- YFP (R59, R61). -/
def Job.InYFP (j : Job) (a : Nat) : Prop :=
  match j.op with
  | .rgb32 => InRows j.y j.ys j.h j.w a
  | .rgb24 => InRows j.y j.ys j.h j.w a
  | .yuy2 => j.y ≤ a ∧ a < j.y + j.w * j.h

/-- UFP from `base = u`, VFP from `base = v` (R60, R61). -/
def Job.InChromaFP (j : Job) (base a : Nat) : Prop :=
  match j.op with
  | .rgb32 => InRows base j.uvs (j.h / 2) (j.w / 2) a
  | .rgb24 => InRows base j.uvs (j.h / 2) (j.w / 2) a
  | .yuy2 => base ≤ a ∧ a < base + (j.w / 2) * (j.h / 2)

/-- DstFP (R62). -/
def Job.InDstFP (j : Job) (a : Nat) : Prop := j.InYFP a ∨ j.InChromaFP j.u a ∨ j.InChromaFP j.v a

/-- Every footprint byte may be accessed (60_exceptions.md R167). -/
def Job.AllMemOk (j : Job) (p : Platform) : Prop := ∀ a, j.InSrcFP a ∨ j.InDstFP a → memOk p a = true

/-- Some byte is in two of the four footprints (60_exceptions.md R168). -/
def Job.SharesByte (j : Job) : Prop :=
  ∃ a, (j.InSrcFP a ∧ j.InYFP a) ∨ (j.InSrcFP a ∧ j.InChromaFP j.u a) ∨ (j.InSrcFP a ∧ j.InChromaFP j.v a) ∨
    (j.InYFP a ∧ j.InChromaFP j.u a) ∨ (j.InYFP a ∧ j.InChromaFP j.v a) ∨
    (j.InChromaFP j.u a ∧ j.InChromaFP j.v a)

/-- The strides of a latched job: at least the tight row sizes for RGB (60_exceptions.md R166), exactly the tight ones
for YUY2, which has no legacy mode either (41_yuy2_to_yuv.md R140, R141). -/
def Job.stridesOk (j : Job) : Prop :=
  match j.op with
  | .rgb32 => 4 * j.w ≤ j.rs ∧ j.w ≤ j.ys ∧ j.w / 2 ≤ j.uvs
  | .rgb24 => 3 * j.w ≤ j.rs ∧ j.w ≤ j.ys ∧ j.w / 2 ≤ j.uvs
  | .yuy2 => j.rs = 2 * j.w ∧ j.ys = j.w ∧ j.uvs = j.w / 2 ∧ j.legacy = false

/-- A job that passed the checks of R160. -/
structure JobChecked (p : Platform) (j : Job) : Prop where
  evenWidth : j.w % 2 = 0
  evenHeight : j.h % 2 = 0
  strides : j.stridesOk
  range : rangeLegal p j = true
  planes : planesDisjoint j = true

/-- STATUS as R24 to R27 leave it: at most one of BUSY, DONE, ERR; ERRCODE 0 without ERR and 1 to 5 with it. -/
structure StatusLegal (st : Status) : Prop where
  busyNotDone : st.busy = true → st.done = false
  busyNotErr : st.busy = true → st.err = false
  doneNotErr : st.done = true → st.err = false
  noErrNoCode : st.err = false → st.errCode = 0#4
  errCodeRange : st.err = true → 1 ≤ st.errCode.toNat ∧ st.errCode.toNat ≤ 5

/-- The invariant of the machine, which every step keeps. -/
structure State.Inv (s : State) : Prop where
  /-- Memory is in its canonical form. -/
  memWf : Memory.wf s.mem = true
  /-- The hosts' temporaries are in theirs. -/
  tempsWf : ∀ h ∈ s.hosts, Cells.wf h.temps = true
  /-- R24, R26, R27. -/
  status : StatusLegal s.status
  /-- BUSY = 1 exactly while a job exists (R25). -/
  busyIffJob : s.status.busy = s.job.isSome
  /-- No job, no pending unit and no taint (R38). -/
  idle : s.job = none → s.pending = [] ∧ s.tainted = false
  /-- The running job passed the checks (R33). -/
  checked : ∀ j, s.job = some j → JobChecked s.plat j
  /-- `pending` is a set of units of the job (R34). -/
  pendingNodup : s.pending.Nodup
  pendingUnits : ∀ j, s.job = some j → ∀ u ∈ s.pending, u ∈ j.units

/-- The job `j`, started when memory was `m0`, has got so far: the source is as it was, the units no longer pending
have their results, computed from `m0`, in memory, and the bytes of the others are as they were. -/
structure Progress (m0 : Memory) (j : Job) (s : State) : Prop where
  source : ∀ a, covers j.srcFootprint a = true → Cells.read s.mem a = Cells.read m0 a
  performed : ∀ u ∈ j.units, u ∉ s.pending → ∀ w ∈ unitWrites m0 j u, Cells.read s.mem w.1 = w.2
  waiting : ∀ u ∈ s.pending, ∀ w ∈ unitWrites m0 j u, Cells.read s.mem w.1 = Cells.read m0 w.1

/-- The premise of every claim about a program: the source's contract was not broken (R37). -/
def Clean (s : State) : Prop := s.fault = none

/-- Right after the command that started `j`: the job runs, every unit is pending, nothing has gone wrong with it. -/
structure JustStarted (j : Job) (s : State) : Prop where
  busy : s.status.busy = true
  job : s.job = some j
  pending : s.pending = j.units
  untainted : s.tainted = false
  checked : JobChecked s.plat j
  memWf : Memory.wf s.mem = true

end Sys2Proof.Machine
end

