-- ==== Sys2Proof/Certificates/Slice0/Obligations.lean ====
section
/-! DEFINITION. The statements for the provers, one `def Obligations.<Name> : Prop` each (OBLIGATIONS.json lists
them). A statement about a state after a step names the step; `Inv`, `JobChecked`, `JustStarted`, `Progress` and the
footprint sets are those of Safety.lean. -/

open Sys2Proof Sys2Proof.Machine

/-! ### Encoding -/

/-- R85: the five words of the opcode map, as commands and as encodings, and four neighbours that are reserved. -/
def Obligations.OpcodeMapWords : Prop :=
  (decode 0x00000001#32 = some .rgb32 ∧ decode 0x00000101#32 = some .rgb32Legacy ∧
    decode 0x00000002#32 = some .rgb24 ∧ decode 0x00000102#32 = some .rgb24Legacy ∧
    decode 0x00000003#32 = some .yuy2) ∧
  (encode .rgb32 = 0x00000001#32 ∧ encode .rgb32Legacy = 0x00000101#32 ∧ encode .rgb24 = 0x00000002#32 ∧
    encode .rgb24Legacy = 0x00000102#32 ∧ encode .yuy2 = 0x00000003#32) ∧
  (decode 0x00000103#32 = none ∧ decode 0x00000011#32 = none ∧ decode 0x00000201#32 = none ∧
    decode 0x80000001#32 = none)

/-- R85, R86: decoding and encoding agree in both directions, over all 2^32 words: a word is the command `i` exactly
when it is the one word that encodes `i`, and those are the five words of the map. -/
def Obligations.DecodeIffEncoding : Prop :=
  (∀ (w : Word) (i : Instr), decode w = some i ↔ w = encode i) ∧
  (∀ w : Word, decode w ≠ none ↔
    w = 0x00000001#32 ∨ w = 0x00000101#32 ∨ w = 0x00000002#32 ∨ w = 0x00000102#32 ∨ w = 0x00000003#32) ∧
  (encode .rgb32 = 0x00000001#32 ∧ encode .rgb32Legacy = 0x00000101#32 ∧ encode .rgb24 = 0x00000002#32 ∧
    encode .rgb24Legacy = 0x00000102#32 ∧ encode .yuy2 = 0x00000003#32)

/-- R164, R86: the words the decoder rejects are those with a nonzero bit in 7:4 or 31:9, an OP outside 1 to 3, or
OP = 3 with L = 1. -/
def Obligations.ReservedWordsExactly : Prop :=
  ∀ w : Word, decode w = none ↔
    (w.toNat / 16 % 16 ≠ 0 ∨ w.toNat / 512 ≠ 0 ∨ w.toNat % 16 = 0 ∨ 4 ≤ w.toNat % 16 ∨
      (w.toNat % 16 = 3 ∧ w.toNat / 256 % 2 = 1))

/-! ### The clamp and the matrix -/

/-- R100, R101: the clamp, and that it is the identity on bytes. -/
def Obligations.ClampSaturates : Prop :=
  ∀ x : Int, (x < 0 → clip8 x = 0) ∧ (255 < x → clip8 x = 255) ∧ (0 ≤ x → x ≤ 255 → clip8 x = x)

/-- R103 to R106: the four output formulas, with the floor of an exact quotient written as `Int.fdiv` and the clamp as
a maximum and a minimum, and the four examples. -/
def Obligations.MatrixFormulas : Prop :=
  (cscY 76 84 255 = 103 ∧ cscU 76 84 255 = 204 ∧ cscV 76 84 255 = 112 ∧ cscVLegacy 76 84 = 125) ∧
  ∀ r g b : Int,
    cscY r g b = max 0 (min 255 (Int.fdiv (r * 66 + g * 129 + b * 25 + 128) 256 + 16)) ∧
    cscU r g b = max 0 (min 255 (Int.fdiv (r * (-38) + g * (-74) + b * 112 + 128) 256 + 128)) ∧
    cscV r g b = max 0 (min 255 (Int.fdiv (r * 112 + g * (-94) + b * (-18) + 128) 256 + 128)) ∧
    cscVLegacy r g = max 0 (min 255 (Int.fdiv (r * 112 + g * (-112) + 128) 256 + 128))

/-- R108: for channel bytes the samples stay in the studio range, the clamp changes nothing, and the biased sums lie
between their corner extremes. -/
def Obligations.StudioRange : Prop :=
  ∀ r g b : Byte,
    (16 ≤ cscY (channel r) (channel g) (channel b) ∧ cscY (channel r) (channel g) (channel b) ≤ 235) ∧
    (16 ≤ cscU (channel r) (channel g) (channel b) ∧ cscU (channel r) (channel g) (channel b) ≤ 240) ∧
    (16 ≤ cscV (channel r) (channel g) (channel b) ∧ cscV (channel r) (channel g) (channel b) ≤ 240) ∧
    (16 ≤ cscVLegacy (channel r) (channel g) ∧ cscVLegacy (channel r) (channel g) ≤ 240) ∧
    cscY (channel r) (channel g) (channel b) = asr (ySum (channel r) (channel g) (channel b)) 8 + 16 ∧
    cscU (channel r) (channel g) (channel b) = asr (uSum (channel r) (channel g) (channel b)) 8 + 128 ∧
    cscV (channel r) (channel g) (channel b) = asr (vSum (channel r) (channel g) (channel b)) 8 + 128 ∧
    cscVLegacy (channel r) (channel g) = asr (vLegacySum (channel r) (channel g)) 8 + 128 ∧
    (128 ≤ ySum (channel r) (channel g) (channel b) ∧ ySum (channel r) (channel g) (channel b) ≤ 56228) ∧
    (-28432 ≤ uSum (channel r) (channel g) (channel b) ∧ uSum (channel r) (channel g) (channel b) ≤ 28688) ∧
    (-28432 ≤ vSum (channel r) (channel g) (channel b) ∧ vSum (channel r) (channel g) (channel b) ≤ 28688) ∧
    (-28432 ≤ vLegacySum (channel r) (channel g) ∧ vLegacySum (channel r) (channel g) ≤ 28688)

/-- R109: every biased sum of channel bytes lies in [-28432, 56228], and in [-28560, 56100] before the bias. -/
def Obligations.SumsFitSigned32 : Prop :=
  ∀ (r g b : Byte) (x : Int),
    x = ySum (channel r) (channel g) (channel b) ∨ x = uSum (channel r) (channel g) (channel b) ∨
      x = vSum (channel r) (channel g) (channel b) ∨ x = vLegacySum (channel r) (channel g) →
    (-28432 ≤ x ∧ x ≤ 56228) ∧ (-28560 ≤ x - 128 ∧ x - 128 ≤ 56100)

/-- R107: the selected V; the two sums differ by 18 (b - g); the forms agree when g = b, and also for (0, 0, 1), but
not for (0, 0, 255). -/
def Obligations.VSelection : Prop :=
  (∀ r g b : Int, cscVSel true r g b = cscVLegacy r g ∧ cscVSel false r g b = cscV r g b ∧
    vLegacySum r g - vSum r g b = 18 * (b - g) ∧ (g = b → cscVLegacy r g = cscV r g b)) ∧
  (cscV 0 0 1 = 128 ∧ cscVLegacy 0 0 = 128 ∧ cscV 0 0 255 = 110)

/-! ### Acceptance and refusal of a command -/

/-- R160, R33, R34 for the two CSC.RGB32 words: with even non-negative dimensions, strides at least tight, every
footprint byte accessible and no byte in two footprints, the command starts its job. Only the job, the pending units,
STATUS (and the model's taint) change. -/
def Obligations.Rgb32Starts : Prop :=
  ∀ (s : State) (w h rs ys uvs : Nat) (j : Bool → Job),
    s.status.busy = false →
    s.params.width.toInt = w → s.params.height.toInt = h → w % 2 = 0 → h % 2 = 0 →
    s.params.rgbStride.toInt = rs → s.params.yStride.toInt = ys → s.params.uvStride.toInt = uvs →
    4 * w ≤ rs → w ≤ ys → w / 2 ≤ uvs →
    (∀ l, j l = { op := .rgb32, legacy := l, src := s.params.srcAddr.toNat, y := s.params.yAddr.toNat,
                  u := s.params.uAddr.toNat, v := s.params.vAddr.toNat, w := w, h := h, rs := rs, ys := ys,
                  uvs := uvs }) →
    (j false).AllMemOk s.plat → ¬ (j false).SharesByte →
    exec .rgb32 s = .next { s with
      job := some (j false), pending := (j false).units, tainted := false
      status := { busy := true, done := false, err := false, ovr := false, errCode := 0 } } ∧
    exec .rgb32Legacy s = .next { s with
      job := some (j true), pending := (j true).units, tainted := false
      status := { busy := true, done := false, err := false, ovr := false, errCode := 0 } }

/-- The same for the two CSC.RGB24 words, with a tight source row of 3 w bytes. -/
def Obligations.Rgb24Starts : Prop :=
  ∀ (s : State) (w h rs ys uvs : Nat) (j : Bool → Job),
    s.status.busy = false →
    s.params.width.toInt = w → s.params.height.toInt = h → w % 2 = 0 → h % 2 = 0 →
    s.params.rgbStride.toInt = rs → s.params.yStride.toInt = ys → s.params.uvStride.toInt = uvs →
    3 * w ≤ rs → w ≤ ys → w / 2 ≤ uvs →
    (∀ l, j l = { op := .rgb24, legacy := l, src := s.params.srcAddr.toNat, y := s.params.yAddr.toNat,
                  u := s.params.uAddr.toNat, v := s.params.vAddr.toNat, w := w, h := h, rs := rs, ys := ys,
                  uvs := uvs }) →
    (j false).AllMemOk s.plat → ¬ (j false).SharesByte →
    exec .rgb24 s = .next { s with
      job := some (j false), pending := (j false).units, tainted := false
      status := { busy := true, done := false, err := false, ovr := false, errCode := 0 } } ∧
    exec .rgb24Legacy s = .next { s with
      job := some (j true), pending := (j true).units, tainted := false
      status := { busy := true, done := false, err := false, ovr := false, errCode := 0 } }

/-- R141, R33: UNPACK.YUY2 starts its job with the tight strides 2 w, w and w / 2, whatever the three stride registers
hold. -/
def Obligations.Yuy2Starts : Prop :=
  ∀ (s : State) (w h : Nat) (j : Job),
    s.status.busy = false →
    s.params.width.toInt = w → s.params.height.toInt = h → w % 2 = 0 → h % 2 = 0 →
    j = { op := .yuy2, legacy := false, src := s.params.srcAddr.toNat, y := s.params.yAddr.toNat,
          u := s.params.uAddr.toNat, v := s.params.vAddr.toNat, w := w, h := h, rs := 2 * w, ys := w,
          uvs := w / 2 } →
    j.AllMemOk s.plat → ¬ j.SharesByte →
    exec .yuy2 s = .next { s with
      job := some j, pending := j.units, tainted := false
      status := { busy := true, done := false, err := false, ovr := false, errCode := 0 } }

/-- R34: the pending set at job start is every pixel (RGB) or every macropixel (YUY2), each once. -/
def Obligations.UnitsOfJob : Prop :=
  ∀ (j : Job) (u : WorkUnit),
    j.units.Nodup ∧
    ((j.op = .rgb32 ∨ j.op = .rgb24) → (u ∈ j.units ↔ u.row < j.h ∧ u.col < j.w)) ∧
    (j.op = .yuy2 → (u ∈ j.units ↔ u.row < j.h ∧ u.col < j.w / 2))

/-- R165: ERR_DIM, for all five commands, whatever the other parameters hold. Nothing but STATUS and the fault record
changes, and an empty fault record becomes PRE_DIM. -/
def Obligations.DimensionRefusal : Prop :=
  ∀ (i : Instr) (s : State), s.status.busy = false →
    (s.params.width.toInt < 0 ∨ s.params.height.toInt < 0 ∨ s.params.width.toInt % 2 ≠ 0 ∨
      s.params.height.toInt % 2 ≠ 0) →
    ∃ t, exec i s = .next t ∧
      t.status = { busy := false, done := false, err := true, ovr := false, errCode := 2 } ∧
      (s.fault = none → t.fault = some .preDim) ∧ t = { s with status := t.status, fault := t.fault }

/-- R166: ERR_STRIDE for the four RGB commands when a signed stride is below its tight row size, and never for
UNPACK.YUY2. -/
def Obligations.StrideRefusal : Prop :=
  (∀ (i : Instr) (s : State) (bpp : Int), s.status.busy = false →
    0 ≤ s.params.width.toInt → 0 ≤ s.params.height.toInt → s.params.width.toInt % 2 = 0 →
    s.params.height.toInt % 2 = 0 →
    ((i = .rgb32 ∨ i = .rgb32Legacy) ∧ bpp = 4 ∨ (i = .rgb24 ∨ i = .rgb24Legacy) ∧ bpp = 3) →
    (s.params.rgbStride.toInt < bpp * s.params.width.toInt ∨ s.params.yStride.toInt < s.params.width.toInt ∨
      s.params.uvStride.toInt < s.params.width.toInt / 2) →
    ∃ t, exec i s = .next t ∧
      t.status = { busy := false, done := false, err := true, ovr := false, errCode := 3 } ∧
      (s.fault = none → t.fault = some .preStride) ∧ t = { s with status := t.status, fault := t.fault }) ∧
  (∀ s t : State, s.status.busy = false → exec .yuy2 s = .next t → t.status.errCode ≠ 3)

/-- R167: ERR_RANGE when a footprint byte fails MEM_OK, the dimensions and strides being legal. `j` is the job the
command would start; its footprints are sets of exact natural numbers, and one at or above 2^32 fails. -/
def Obligations.RangeRefusal : Prop :=
  (∀ (p : Platform) (a : Nat), 2 ^ 32 ≤ a → memOk p a = false) ∧
  ∀ (i : Instr) (s : State) (j : Job), s.status.busy = false →
    dimsLegal s.params = true →
    j = candidateJob i.op i.legacyBit s.params → stridesLegal i.op s.params = true →
    (∃ a, (j.InSrcFP a ∨ j.InDstFP a) ∧ memOk s.plat a = false) →
    ∃ t, exec i s = .next t ∧
      t.status = { busy := false, done := false, err := true, ovr := false, errCode := 4 } ∧
      (s.fault = none → t.fault = some .preRange) ∧ t = { s with status := t.status, fault := t.fault }

/-- R168: ERR_ALIAS when two footprints share a byte, everything checked before being legal. -/
def Obligations.AliasRefusal : Prop :=
  ∀ (i : Instr) (s : State) (j : Job), s.status.busy = false →
    dimsLegal s.params = true →
    j = candidateJob i.op i.legacyBit s.params → stridesLegal i.op s.params = true → j.AllMemOk s.plat → j.SharesByte →
    ∃ t, exec i s = .next t ∧
      t.status = { busy := false, done := false, err := true, ovr := false, errCode := 5 } ∧
      (s.fault = none → t.fault = some .preAlias) ∧ t = { s with status := t.status, fault := t.fault }

/-- R164, R171: a word with a nonzero bit in 7:4 or 31:9, an OP outside 1 to 3, or OP = 3 with L = 1, written while
idle, is refused with ERR_CMD whatever the parameters hold; STATUS is all that changes, so no model fault is
recorded. -/
def Obligations.ReservedWordRefusal : Prop :=
  ∀ (w : Word) (s : State), s.status.busy = false →
    (w.toNat / 16 % 16 ≠ 0 ∨ w.toNat / 512 ≠ 0 ∨ w.toNat % 16 = 0 ∨ 4 ≤ w.toNat % 16 ∨
      (w.toNat % 16 = 3 ∧ w.toNat / 256 % 2 = 1)) →
    cmdWrite w s = .next { s with status := { busy := false, done := false, err := true, ovr := false, errCode := 1 } }

/-- R204, R28: any word written to CMD while BUSY = 1, a command or a reserved word, sets OVR and changes nothing
else; and an engine step leaves OVR as it is. -/
def Obligations.CommandWhileBusyIgnored : Prop :=
  (∀ (w : Word) (s : State), s.status.busy = true →
    cmdWrite w s = .next { s with status := { s.status with ovr := true } }) ∧
  (∀ (i : Instr) (s : State), s.status.busy = true →
    exec i s = .next { s with status := { s.status with ovr := true } }) ∧
  (∀ (k : Nat) (s t : State), engineStep k s = .next t → t.status.ovr = s.status.ovr)

/-- R21, R160, the frame of every command word, accepted, refused or ignored: no parameter register, memory byte,
host, platform parameter, schedule entry or draw changes. -/
def Obligations.CommandFrame : Prop :=
  ∀ (i : Instr) (s : State), ∃ t, exec i s = .next t ∧
    t.params = s.params ∧ (∀ a, Cells.read t.mem a = Cells.read s.mem a) ∧ t.mem = s.mem ∧ t.hosts = s.hosts ∧
    t.plat = s.plat ∧ t.sched = s.sched ∧ t.draws = s.draws ∧
    (t.status.busy = false → t.job = s.job ∧ t.pending = s.pending ∧ t.tainted = s.tainted)

/-- R170, R195: with width or height 0 and the strides legal, each command starts a job without units; the next engine
step completes it with DONE and no memory access. All parameters 0, as after a reset, is such a case, whichever the
command. -/
def Obligations.ZeroSizeJob : Prop :=
  (∀ (i : Instr) (s : State) (k : Nat), s.status.busy = false → dimsLegal s.params = true →
    (s.params.width = 0 ∨ s.params.height = 0) → stridesLegal i.op s.params = true →
    ∃ t, exec i s = .next t ∧ t.status.busy = true ∧ t.pending = [] ∧ t.mem = s.mem ∧ t.fault = s.fault ∧
      engineStep k t = .next { s with
        status := { busy := false, done := true, err := false, ovr := false, errCode := 0 }
        job := none, pending := [], tainted := false }) ∧
  (∀ (i : Instr) (s : State), ∃ t, exec i (assertReset s) = .next t ∧ t.status.busy = true ∧ t.pending = [] ∧
    t.mem = s.mem ∧ t.fault = s.fault ∧ ∀ k, ∃ t', engineStep k t = .next t' ∧ t'.mem = s.mem ∧ t'.job = none ∧
      t'.status = { busy := false, done := true, err := false, ovr := false, errCode := 0 })

/-- R163, R89: what a command written while idle leaves in STATUS. Either it started a job (BUSY alone), and the
completion step will leave 0x2; or STATUS is `0x4 | code << 8` for a code from 2 to 5. -/
def Obligations.CommandEndsInDoneOrError : Prop :=
  ∀ (i : Instr) (s t : State), s.status.busy = false → exec i s = .next t →
    (t.job ≠ none ∧ t.status.toWord = 0x1#32 ∧ (completeJob t).status.toWord = 0x2#32) ∨
    (t.job = s.job ∧ ∃ code : Nat, 2 ≤ code ∧ code ≤ 5 ∧
      t.status.toWord = 0x4#32 ||| (BitVec.ofNat 32 code <<< 8))

/-! ### The units of a job -/

/-- R110, R111, R120: one pixel of a CSC.RGB32 job. The next state is written out: the unit leaves the pending set; Y
is stored at its address, and U and V at theirs exactly when row and column are even; nothing else changes. -/
def Obligations.Rgb32UnitEffect : Prop :=
  ∀ (s : State) (j : Job) (k : Nat) (u : WorkUnit) (r g b : Int) (m1 : Memory),
    s.Inv → s.job = some j → j.op = .rgb32 → s.tainted = false → s.pending[k % s.pending.length]? = some u →
    b = (Cells.read s.mem (j.src + u.row * j.rs + 4 * u.col)).toNat →
    g = (Cells.read s.mem (j.src + u.row * j.rs + 4 * u.col + 1)).toNat →
    r = (Cells.read s.mem (j.src + u.row * j.rs + 4 * u.col + 2)).toNat →
    m1 = Cells.write s.mem (j.y + u.row * j.ys + u.col) (BitVec.ofInt 8 (cscY r g b)) →
    engineStep k s = .next { s with
      pending := s.pending.eraseIdx (k % s.pending.length)
      mem := if u.row % 2 = 0 ∧ u.col % 2 = 0 then
          Cells.write (Cells.write m1 (j.u + (u.row / 2) * j.uvs + u.col / 2) (BitVec.ofInt 8 (cscU r g b)))
            (j.v + (u.row / 2) * j.uvs + u.col / 2)
            (BitVec.ofInt 8 (if j.legacy = true then cscVLegacy r g else cscV r g b))
        else m1 }

/-- R110, R111, R125: the same for one pixel of a CSC.RGB24 job, read at 3 bytes a pixel. -/
def Obligations.Rgb24UnitEffect : Prop :=
  ∀ (s : State) (j : Job) (k : Nat) (u : WorkUnit) (r g b : Int) (m1 : Memory),
    s.Inv → s.job = some j → j.op = .rgb24 → s.tainted = false → s.pending[k % s.pending.length]? = some u →
    b = (Cells.read s.mem (j.src + u.row * j.rs + 3 * u.col)).toNat →
    g = (Cells.read s.mem (j.src + u.row * j.rs + 3 * u.col + 1)).toNat →
    r = (Cells.read s.mem (j.src + u.row * j.rs + 3 * u.col + 2)).toNat →
    m1 = Cells.write s.mem (j.y + u.row * j.ys + u.col) (BitVec.ofInt 8 (cscY r g b)) →
    engineStep k s = .next { s with
      pending := s.pending.eraseIdx (k % s.pending.length)
      mem := if u.row % 2 = 0 ∧ u.col % 2 = 0 then
          Cells.write (Cells.write m1 (j.u + (u.row / 2) * j.uvs + u.col / 2) (BitVec.ofInt 8 (cscU r g b)))
            (j.v + (u.row / 2) * j.uvs + u.col / 2)
            (BitVec.ofInt 8 (if j.legacy = true then cscVLegacy r g else cscV r g b))
        else m1 }

/-- R140, R142: one macropixel of an UNPACK.YUY2 job. Two luma bytes always; the chroma bytes only in even rows. -/
def Obligations.Yuy2UnitEffect : Prop :=
  ∀ (s : State) (j : Job) (k : Nat) (u : WorkUnit) (p : Nat) (m2 : Memory),
    s.Inv → s.job = some j → j.op = .yuy2 → s.tainted = false → s.pending[k % s.pending.length]? = some u →
    p = j.src + u.row * (2 * j.w) + 4 * u.col →
    m2 = Cells.write (Cells.write s.mem (j.y + u.row * j.w + 2 * u.col) (Cells.read s.mem p))
      (j.y + u.row * j.w + 2 * u.col + 1) (Cells.read s.mem (p + 2)) →
    engineStep k s = .next { s with
      pending := s.pending.eraseIdx (k % s.pending.length)
      mem := if u.row % 2 = 0 then
          Cells.write (Cells.write m2 (j.u + (u.row / 2) * (j.w / 2) + u.col) (Cells.read s.mem (p + 1)))
            (j.v + (u.row / 2) * (j.w / 2) + u.col) (Cells.read s.mem (p + 3))
        else m2 }

/-- The frame of a unit step of a running job, tainted or not: the parameter registers, STATUS, the job, the fault
record, the hosts and the platform are unchanged, and every byte outside the addresses the unit stores to, which are
those `unitWrites` gives, reads as before. For a tainted job (R200) that its units still store to the same addresses
is the model's choice (log 6). -/
def Obligations.UnitFrame : Prop :=
  ∀ (s t : State) (j : Job) (k : Nat) (u : WorkUnit),
    Memory.wf s.mem = true → s.job = some j → s.status.busy = true →
    s.pending[k % s.pending.length]? = some u → engineStep k s = .next t →
    t.params = s.params ∧ t.status = s.status ∧ t.job = s.job ∧ t.fault = s.fault ∧ t.hosts = s.hosts ∧
    t.plat = s.plat ∧ t.sched = s.sched ∧ t.tainted = s.tainted ∧
    t.pending = s.pending.eraseIdx (k % s.pending.length) ∧
    ∀ a, a ∉ (unitWrites s.mem j u).map Prod.fst → Cells.read t.mem a = Cells.read s.mem a

/-- R62, R63: the addresses the units of a checked job store to are exactly the destination footprint, each byte of
it stored by exactly one unit, once; so no byte outside it, padding among them, is written. -/
def Obligations.EachDestinationByteOnce : Prop :=
  ∀ (p : Platform) (j : Job) (m : Memory), JobChecked p j →
    (∀ a, j.InDstFP a ↔ ∃ u ∈ j.units, a ∈ (unitWrites m j u).map Prod.fst) ∧
    (∀ u ∈ j.units, ((unitWrites m j u).map Prod.fst).Nodup) ∧
    (∀ a, ∀ u ∈ j.units, ∀ u' ∈ j.units, a ∈ (unitWrites m j u).map Prod.fst →
      a ∈ (unitWrites m j u').map Prod.fst → u = u')

/-- R63, R144: a unit reads source-footprint bytes only, and its writes depend on nothing but the bytes it reads; so
padding is never read. -/
def Obligations.UnitReadsSourceOnly : Prop :=
  (∀ (p : Platform) (j : Job), JobChecked p j → ∀ u ∈ j.units, ∀ a ∈ unitReads j u, j.InSrcFP a) ∧
  (∀ (j : Job) (u : WorkUnit) (m m' : Memory), (∀ a ∈ unitReads j u, Cells.read m a = Cells.read m' a) →
    unitWrites m j u = unitWrites m' j u)

/-- R121: the unused byte of a pixel is read and lies in the source footprint, and two memories that differ in the
unused bytes of an RGB32 frame only give every unit the same writes. -/
def Obligations.UnusedByteIrrelevant : Prop :=
  ∀ (p : Platform) (j : Job) (m m' : Memory) (u : WorkUnit), JobChecked p j → j.op = .rgb32 → u ∈ j.units →
    (j.src + u.row * j.rs + 4 * u.col + 3 ∈ unitReads j u ∧ j.InSrcFP (j.src + u.row * j.rs + 4 * u.col + 3)) ∧
    ((∀ a, (∀ i x, i < j.h → x < j.w → a ≠ j.src + i * j.rs + 4 * x + 3) → Cells.read m a = Cells.read m' a) →
      unitWrites m j u = unitWrites m' j u)

/-- R127, R146: what a unit of row `i` stores depends on source row `i` alone; it stores to Y row `i` and, when `i` is
even only, to U and V row `i / 2`. -/
def Obligations.RowLocality : Prop :=
  ∀ (p : Platform) (j : Job) (m m' : Memory) (u : WorkUnit) (tight : Nat), JobChecked p j → u ∈ j.units →
    (j.op = .rgb32 ∧ tight = 4 * j.w ∨ j.op = .rgb24 ∧ tight = 3 * j.w ∨ j.op = .yuy2 ∧ tight = 2 * j.w) →
    ((∀ a, j.src + u.row * j.rs ≤ a → a < j.src + u.row * j.rs + tight → Cells.read m a = Cells.read m' a) →
      unitWrites m j u = unitWrites m' j u) ∧
    ∀ a ∈ (unitWrites m j u).map Prod.fst,
      (j.y + u.row * j.ys ≤ a ∧ a < j.y + u.row * j.ys + j.w) ∨
      (u.row % 2 = 0 ∧ j.u + (u.row / 2) * j.uvs ≤ a ∧ a < j.u + (u.row / 2) * j.uvs + j.w / 2) ∨
      (u.row % 2 = 0 ∧ j.v + (u.row / 2) * j.uvs ≤ a ∧ a < j.v + (u.row / 2) * j.uvs + j.w / 2)

/-- R126: on equivalent pixel data the RGB32 and RGB24 units of the same pixel store the same bytes at the same
addresses. -/
def Obligations.Rgb24AgreesWithRgb32 : Prop :=
  ∀ (j j' : Job) (m m' : Memory) (u : WorkUnit), j.op = .rgb32 → j'.op = .rgb24 →
    j'.legacy = j.legacy → j'.y = j.y → j'.u = j.u → j'.v = j.v → j'.ys = j.ys → j'.uvs = j.uvs →
    (∀ c, c < 3 → Cells.read m (j.src + u.row * j.rs + 4 * u.col + c) =
      Cells.read m' (j'.src + u.row * j'.rs + 3 * u.col + c)) →
    unitWrites m j u = unitWrites m' j' u

/-- R172: no error arises during a job: in every state that meets the invariant an engine turn, whichever unit it
takes, answers a next state, and every address of a pending unit lies inside a footprint and has MEM_OK. -/
def Obligations.NoErrorDuringJob : Prop :=
  ∀ s : State, s.Inv → (∀ k, ∃ t, engineStep k s = .next t) ∧
    ∀ j, s.job = some j → ∀ u ∈ s.pending,
      (∀ a ∈ unitReads j u, j.InSrcFP a ∧ memOk s.plat a = true) ∧
      ∀ a ∈ (unitWrites s.mem j u).map Prod.fst, j.InDstFP a ∧ memOk s.plat a = true

/-! ### A job as a whole -/

/-- R66: a job just started completes after `|pending| + 1` engine steps, in whatever order its units are taken. -/
def Obligations.JobCompletes : Prop :=
  ∀ (j : Job) (s : State) (ks : List Nat), JustStarted j s → s.sched = ks.map .engine →
    ks.length = s.pending.length + 1 →
    ∃ t, Host.Core.run Sys2Proof.core ks.length s = .next t ∧ t.status.busy = false ∧ t.status.done = true ∧
      t.job = none ∧ t.pending = [] ∧ t.params = s.params ∧ t.fault = s.fault

/-- R103 to R111, R120, R125: an RGB job run to its end, in any order of units, leaves in memory the conversion of the
frame as it was at the start: every Y sample, and the U and V samples of the top-left pixel of every 2×2 block; every
byte outside the destination footprint is as it was. -/
def Obligations.RgbFrameConverted : Prop :=
  ∀ (j : Job) (s : State) (ks : List Nat) (bpp : Nat) (px : Nat → Nat → Nat → Int),
    JustStarted j s → (j.op = .rgb32 ∧ bpp = 4 ∨ j.op = .rgb24 ∧ bpp = 3) →
    s.sched = ks.map .engine → ks.length = s.pending.length + 1 →
    (∀ c i x, px c i x = (Cells.read s.mem (j.src + i * j.rs + bpp * x + c)).toNat) →
    ∃ t, Host.Core.run Sys2Proof.core ks.length s = .next t ∧
      (∀ i x, i < j.h → x < j.w → Cells.read t.mem (j.y + i * j.ys + x) =
        BitVec.ofInt 8 (cscY (px 2 i x) (px 1 i x) (px 0 i x))) ∧
      (∀ k m, k < j.h / 2 → m < j.w / 2 →
        Cells.read t.mem (j.u + k * j.uvs + m) =
          BitVec.ofInt 8 (cscU (px 2 (2 * k) (2 * m)) (px 1 (2 * k) (2 * m)) (px 0 (2 * k) (2 * m))) ∧
        Cells.read t.mem (j.v + k * j.uvs + m) =
          BitVec.ofInt 8 (if j.legacy = true then cscVLegacy (px 2 (2 * k) (2 * m)) (px 1 (2 * k) (2 * m))
            else cscV (px 2 (2 * k) (2 * m)) (px 1 (2 * k) (2 * m)) (px 0 (2 * k) (2 * m)))) ∧
      (∀ a, ¬ j.InDstFP a → Cells.read t.mem a = Cells.read s.mem a)

/-- R142, R145, R147: a YUY2 job run to its end, in any order of units: Y is the straight de-interleave, U and V are
the chroma of the even rows, h div 2 rows of w div 2 bytes, and every byte outside the destination footprint is as it
was. -/
def Obligations.Yuy2FrameUnpacked : Prop :=
  ∀ (j : Job) (s : State) (ks : List Nat), JustStarted j s → j.op = .yuy2 →
    s.sched = ks.map .engine → ks.length = s.pending.length + 1 →
    ∃ t, Host.Core.run Sys2Proof.core ks.length s = .next t ∧
      (∀ i x, i < j.h → x < j.w →
        Cells.read t.mem (j.y + i * j.w + x) = Cells.read s.mem (j.src + i * (2 * j.w) + 2 * x)) ∧
      (∀ k m, k < j.h / 2 → m < j.w / 2 →
        Cells.read t.mem (j.u + k * (j.w / 2) + m) = Cells.read s.mem (j.src + (2 * k) * (2 * j.w) + 4 * m + 1) ∧
        Cells.read t.mem (j.v + k * (j.w / 2) + m) = Cells.read s.mem (j.src + (2 * k) * (2 * j.w) + 4 * m + 3)) ∧
      (∀ a, ¬ j.InDstFP a → Cells.read t.mem a = Cells.read s.mem a)

/-- R67, R203: two orders of the units of one job end in the same state of the block and the same memory. -/
def Obligations.UnitOrderIrrelevant : Prop :=
  ∀ (j : Job) (s t t' : State) (ks ks' : List Nat), JustStarted j s →
    ks.length = s.pending.length + 1 → ks'.length = s.pending.length + 1 →
    Host.Core.run Sys2Proof.core ks.length { s with sched := ks.map .engine } = .next t →
    Host.Core.run Sys2Proof.core ks'.length { s with sched := ks'.map .engine } = .next t' →
    t = t'

/-- The command that starts a job starts its progress (R33, R34): nothing of it is done. -/
def Obligations.ProgressStarts : Prop :=
  ∀ (i : Instr) (s t : State) (j : Job), s.Inv → s.status.busy = false → exec i s = .next t → t.job = some j →
    Progress s.mem j t ∧ JustStarted j t

/-- R67: whatever the hosts do meanwhile, short of a hazard: every step that leaves the job running untainted keeps its
progress. So a unit's results, once in memory, stay, and those of a unit not yet run are still the old bytes (R201). -/
def Obligations.ProgressKept : Prop :=
  ∀ (m0 : Memory) (j : Job) (s t : State), s.Inv → s.job = some j → s.tainted = false → Progress m0 j s →
    step s = .next t → t.job = some j → t.tainted = false → Progress m0 j t

/-- R25, R66: when a job completes, every write of it is in memory: with nothing pending the completion step clears
BUSY, sets DONE, and every unit's results, computed from the frame at the start, are read from memory. -/
def Obligations.CompletionShowsEveryWrite : Prop :=
  ∀ (m0 : Memory) (j : Job) (s : State) (k : Nat), s.Inv → s.job = some j → Progress m0 j s → s.pending = [] →
    ∃ t, engineStep k s = .next t ∧ t.status.busy = false ∧ t.status.done = true ∧ t.job = none ∧ t.mem = s.mem ∧
      ∀ u ∈ j.units, ∀ w ∈ unitWrites m0 j u, Cells.read t.mem w.1 = w.2

/-- R191: a job cut off by the reset after any of its steps: the registers are reset, the job is gone, and each byte
its units would store to holds its old value or its final one; every other byte is as it was. -/
def Obligations.ResetAbortsJob : Prop :=
  ∀ (j : Job) (s : State) (ks : List Nat), JustStarted j s → s.sched = ks.map .engine ++ [.reset] →
    ks.length ≤ s.pending.length →
    ∃ t, Host.Core.run Sys2Proof.core (ks.length + 1) s = .next t ∧
      t.status = { busy := false, done := false, err := false, ovr := false, errCode := 0 } ∧
      t.params = { srcAddr := 0, yAddr := 0, uAddr := 0, vAddr := 0, width := 0, height := 0, rgbStride := 0,
                   yStride := 0, uvStride := 0 } ∧
      t.job = none ∧ t.pending = [] ∧ t.fault = s.fault ∧
      (∀ u ∈ j.units, ∀ w ∈ unitWrites s.mem j u,
        Cells.read t.mem w.1 = w.2 ∨ Cells.read t.mem w.1 = Cells.read s.mem w.1) ∧
      (∀ a, ¬ j.InDstFP a → Cells.read t.mem a = Cells.read s.mem a)

/-! ### Registers, hosts and hazards -/

/-- R24: STATUS as a read returns it: BUSY, DONE, ERR and OVR at bits 0 to 3, ERRCODE at 11:8, every other bit 0. -/
def Obligations.StatusWordLayout : Prop :=
  ∀ st : Status, st.toWord.toNat =
    st.busy.toNat + 2 * st.done.toNat + 4 * st.err.toNat + 8 * st.ovr.toNat + 256 * st.errCode.toNat

/-- R29 to R31, R21: a host's word write to a parameter register reads back unchanged, whatever the word; the other
registers, STATUS among them, read as before; memory, the job and the fault record are as before. -/
def Obligations.ParameterReadsBack : Prop :=
  ∀ (s : State) (k : Nat) (h : HostAgent) (r : Reg) (v : Word), r ≠ .cmd → r ≠ .status →
    s.hosts[k]? = some h → h.current = some (.wr (regAddr s.plat r) 4 v) →
    ∃ t, hostStep k s = .next t ∧ readReg t r = v ∧ (∀ r', r' ≠ r → readReg t r' = readReg s r') ∧
      t.mem = s.mem ∧ t.job = s.job ∧ t.pending = s.pending ∧ t.status = s.status ∧ t.fault = s.fault

/-- R23, R24, R32, R71: a write to STATUS or to a reserved offset is ignored (the host only moves on), and CMD and the
reserved offsets read 0. That a reserved offset is not refused is the model's choice among the two R32 allows
(log 8). -/
def Obligations.IgnoredRegisterWrites : Prop :=
  (∀ (s : State) (k : Nat) (h : HostAgent) (off : Nat) (v : Word), s.hosts[k]? = some h →
    (off = 0x04 ∨ 0x2C ≤ off ∧ off ≤ 0x3C ∧ off % 4 = 0) →
    h.current = some (.wr (regBase s.plat + off) 4 v) →
    hostStep k s = .next { s with hosts := s.hosts.set k { h with pos := h.pos + 1 } }) ∧
  (∀ (s : State) (off : Nat), (off = 0 ∨ 0x2C ≤ off ∧ off ≤ 0x3C) → readOffset s off = 0)

/-- R71, R23, R24: a host's word read of a register puts its value (0 for CMD) into the temporary and changes nothing
else; STATUS is not cleared by it. -/
def Obligations.RegisterReadHasNoSideEffect : Prop :=
  ∀ (s : State) (k : Nat) (h : HostAgent) (r : Reg) (n : Nat), s.hosts[k]? = some h →
    h.current = some (.rd (regAddr s.plat r) 4 n) → Cells.wf h.temps = true →
    ∃ h', hostStep k s = .next { s with hosts := s.hosts.set k h' } ∧ h'.prog = h.prog ∧ h'.pos = h.pos + 1 ∧
      (r = .cmd → Cells.read h'.temps n = 0) ∧ (r = .status → Cells.read h'.temps n = s.status.toWord) ∧
      Cells.read h'.temps n = readReg s r ∧ ∀ n', n' ≠ n → Cells.read h'.temps n' = Cells.read h.temps n'

/-- R70: a register access that is not a whole word, or not word-aligned, is given no meaning: the step refuses by
name. So it does, by the model's choice (log 9), for a byte access to shared memory at an address of the window, and
for a register access of a script outside the window. -/
def Obligations.SubWordAccessRefused : Prop :=
  ∀ (s : State) (k : Nat) (h : HostAgent), s.hosts[k]? = some h →
    (∀ (off bytes : Nat) (v : Word) (t : Nat), off < 64 →
      (h.current = some (.wr (regBase s.plat + off) bytes v) ∨ h.current = some (.rd (regBase s.plat + off) bytes t)) →
      (bytes ≠ 4 → hostStep k s = .refused .notWordAccess) ∧
      (bytes = 4 → off % 4 ≠ 0 → hostStep k s = .refused .misalignedAccess)) ∧
    (∀ (a : Nat) (b : Byte) (n : Nat), inWindow s.plat a = true →
      (h.current = some (.memWr a b) ∨ h.current = some (.memRd a n)) →
      hostStep k s = .refused .notWordAccess) ∧
    (∀ (a bytes : Nat) (v : Word) (t : Nat), inWindow s.plat a = false →
      (h.current = some (.wr a bytes v) ∨ h.current = some (.rd a bytes t)) →
      hostStep k s = .refused .outsideRegisterWindow)

/-- R73, R160: a step runs the decoded command. When the next turn is that of a host about to write the word `w` to
CMD, and `w` decodes to `i`, the step is `exec i` of the state in which the host has moved on and the turn is used
up. -/
def Obligations.StepRunsDecodedCommand : Prop :=
  ∀ (s : State) (k : Nat) (h : HostAgent) (rest : List Turn) (w : Word) (i : Instr),
    s.sched = .host k :: rest → s.hosts[k]? = some h → h.current = some (.wr (regAddr s.plat .cmd) 4 w) →
    decode w = some i →
    step s = exec i { s with sched := rest, hosts := s.hosts.set k { h with pos := h.pos + 1 } }

/-- R89: the two statements of `wait_idle`, taken one after the other: the temporary holds STATUS, and the host is back
at the first statement while BUSY = 1 and past the second otherwise; the other temporaries, and all the rest of the
state, are as before. -/
def Obligations.WaitIdlePolls : Prop :=
  ∀ (s : State) (k here t : Nat) (h : HostAgent) (rest : List Turn),
    s.sched = .host k :: .host k :: rest → s.hosts[k]? = some h → h.pos = here → Cells.wf h.temps = true →
    h.prog[here]? = some (.rd (regAddr s.plat .status) 4 t) → h.prog[here + 1]? = some (.bnz t 0x1#32 here) →
    ∃ h', Host.Core.run Sys2Proof.core 2 s = .next { s with sched := rest, hosts := s.hosts.set k h' } ∧
      Cells.read h'.temps t = s.status.toWord ∧ (∀ t', t' ≠ t → Cells.read h'.temps t' = Cells.read h.temps t') ∧
      h'.prog = h.prog ∧ h'.pos = if s.status.busy = true then here else here + 2

/-- R202: parameter writes carry no hazard for a running job: an engine step and a parameter write commute. -/
def Obligations.ParameterWriteWhileBusyHarmless : Prop :=
  ∀ (s t : State) (k : Nat) (r : Reg) (v : Word), engineStep k s = .next t →
    engineStep k (writeParam s r v) = .next (writeParam t r v)

/-- R200: a host write to a byte of the running job's source or destination footprint records HZ_WRITE where no fault
was recorded, taints the job and changes no other byte. What the byte then holds is unspecified: the statement says
nothing of it. -/
def Obligations.HazardWriteRecorded : Prop :=
  ∀ (s : State) (j : Job) (k : Nat) (h : HostAgent) (a : Nat) (b : Byte), s.Inv → s.job = some j →
    s.hosts[k]? = some h → h.current = some (.memWr a b) → (j.InSrcFP a ∨ j.InDstFP a) → inWindow s.plat a = false →
    ∃ t, hostStep k s = .next t ∧ t.tainted = true ∧ (s.fault = none → t.fault = some .hzWrite) ∧
      t.status = s.status ∧ t.job = s.job ∧ t.pending = s.pending ∧
      t.params = s.params ∧ ∀ a', a' ≠ a → Cells.read t.mem a' = Cells.read s.mem a'

/-- R67: a host write outside the running footprints stores its byte and changes no other byte, and a host read puts
the byte as it stands into the temporary, moves the host on and changes nothing else. That a host reaches every byte
below 2^32, with MEM_OK or without, is the model's choice (log 10). -/
def Obligations.HostMemoryAccess : Prop :=
  (∀ (s : State) (k : Nat) (h : HostAgent) (a : Nat) (b : Byte), s.Inv → s.hosts[k]? = some h →
    h.current = some (.memWr a b) → inWindow s.plat a = false → a < 2 ^ 32 →
    (∀ j, s.job = some j → ¬ j.InSrcFP a ∧ ¬ j.InDstFP a) →
    ∃ t, hostStep k s = .next t ∧ Cells.read t.mem a = b ∧
      (∀ a', a' ≠ a → Cells.read t.mem a' = Cells.read s.mem a') ∧ t.status = s.status ∧ t.params = s.params ∧
      t.job = s.job ∧ t.pending = s.pending ∧ t.fault = s.fault ∧ t.tainted = s.tainted) ∧
  (∀ (s : State) (k : Nat) (h : HostAgent) (a n : Nat), s.hosts[k]? = some h → h.current = some (.memRd a n) →
    inWindow s.plat a = false → a < 2 ^ 32 → Cells.wf h.temps = true →
    ∃ h', hostStep k s = .next { s with hosts := s.hosts.set k h' } ∧ h'.prog = h.prog ∧ h'.pos = h.pos + 1 ∧
      (Cells.read h'.temps n).toNat = (Cells.read s.mem a).toNat ∧
      ∀ n', n' ≠ n → Cells.read h'.temps n' = Cells.read h.temps n')

/-- R201: a host read while the job runs, the hosts having kept the hazard rule. A destination byte reads as it was
before the command while its unit is pending and as the job's final value once it has run; a source byte reads
unchanged. -/
def Obligations.ReadWhileBusyOldOrFinal : Prop :=
  ∀ (m0 : Memory) (s : State) (j : Job) (k : Nat) (h : HostAgent) (a n : Nat), s.Inv → s.job = some j →
    s.tainted = false → Progress m0 j s → s.hosts[k]? = some h → h.current = some (.memRd a n) →
    inWindow s.plat a = false → (j.InSrcFP a ∨ j.InDstFP a) →
    ∃ h', hostStep k s = .next { s with hosts := s.hosts.set k h' } ∧ h'.prog = h.prog ∧ h'.pos = h.pos + 1 ∧
      (∀ n', n' ≠ n → Cells.read h'.temps n' = Cells.read h.temps n') ∧
      (j.InSrcFP a → (Cells.read h'.temps n).toNat = (Cells.read m0 a).toNat) ∧
      ∀ u ∈ j.units, ∀ w ∈ unitWrites m0 j u, w.1 = a →
        (u ∈ s.pending → (Cells.read h'.temps n).toNat = (Cells.read m0 a).toNat) ∧
        (u ∉ s.pending → (Cells.read h'.temps n).toNat = w.2.toNat)

/-- The model's choice (log 10): a host access to shared memory at an address from 2^32 on faults by name. R51 says
that the byte addresses of the shared memory end there, and says nothing of such an access. -/
def Obligations.HostAddressOutsideMemoryFaults : Prop :=
  ∀ (s : State) (k : Nat) (h : HostAgent) (a : Nat) (b : Byte) (n : Nat), s.hosts[k]? = some h → 2 ^ 32 ≤ a →
    inWindow s.plat a = false → (h.current = some (.memWr a b) ∨ h.current = some (.memRd a n)) →
    hostStep k s = .fault .hostAddressOutsideMemory

/-! ### Reset, idling, and what every step keeps -/

/-- R190, R39: the reset input. Every parameter register and STATUS are 0 and there is no job; memory and the fault
record keep their values. -/
def Obligations.ResetValues : Prop :=
  ∀ (s : State) (rest : List Turn), s.sched = .reset :: rest →
    ∃ t, step s = .next t ∧ (∀ r, readReg t r = 0) ∧ t.job = none ∧ t.pending = [] ∧ t.mem = s.mem ∧
      t.fault = s.fault

/-- R192: a host access and the reset in the same instant are the access and then the reset: the state after it is
the reset of the state the access alone would leave. -/
def Obligations.ResetAfterSimultaneousAccess : Prop :=
  ∀ (s t : State) (k : Nat) (rest : List Turn),
    step { s with sched := .hostAndReset k :: rest } = .next t ↔
      ∃ u, step { s with sched := .host k :: rest } = .next u ∧
        t = { u with params := { srcAddr := 0, yAddr := 0, uAddr := 0, vAddr := 0, width := 0, height := 0,
                                 rgbStride := 0, yStride := 0, uvStride := 0 }
                     status := { busy := false, done := false, err := false, ovr := false, errCode := 0 }
                     job := none, pending := [], tainted := false }

/-- R183: with BUSY = 0, no host statement left and no turn to come, the machine is idle: the step keeps everything. -/
def Obligations.IdleKeepsState : Prop :=
  ∀ s : State, s.status.busy = false → s.sched = [] → (∀ h ∈ s.hosts, h.prog.length ≤ h.pos) → step s = .next s

/-- R66, the fairness the model gives: once the schedule is used up, a step of a busy machine is an engine step. -/
def Obligations.EngineRunsWhenScheduleEnds : Prop :=
  ∀ s : State, s.Inv → s.status.busy = true → s.sched = [] →
    ∃ (k : Nat) (t : State), step s = .next t ∧ engineStep k { s with draws := s.draws + 1 } = .next t ∧
      (s.pending = [] → t.status.busy = false) ∧ (s.pending ≠ [] → t.pending.length + 1 = s.pending.length)

/-- R37: the fault record starts empty, and once set no step, the reset among them, clears it. -/
def Obligations.FaultNeverCleared : Prop :=
  State.reset.fault = none ∧
  ∀ (s t : State), s.fault ≠ none → step s = .next t → t.fault ≠ none

/-- The fault record keeps its FIRST reason whatever a step does. The model's choice (log 5): R37 leaves open whether a
second reason replaces the first. -/
def Obligations.FaultRecordKeepsFirst : Prop :=
  ∀ (s t : State) (r : FaultReason), s.fault = some r → step s = .next t → t.fault = some r

/-- R9, R20: REG_BASE and MEM_OK are parameters: no step changes them. REG_BASE is a multiple of 64 and MEM_OK holds
only below 2^32. -/
def Obligations.PlatformIsConstant : Prop :=
  (∀ s t : State, step s = .next t → t.plat = s.plat) ∧
  (∀ p : Platform, 64 ∣ regBase p ∧ ∀ a, memOk p a = true → a < 2 ^ 32)

/-- The invariant holds right after reset. -/
def Obligations.InvariantAtReset : Prop := State.reset.Inv

/-- The invariant (memory canonical; R24 to R27 of STATUS; BUSY exactly while a job exists, R25; the running job
checked and its pending set a set of its units, R33, R34) is kept by every step from every state that meets it. -/
def Obligations.InvariantKept : Prop :=
  ∀ s t : State, s.Inv → step s = .next t → t.Inv
end

