-- ==== Sys2Proof/Laws/State.lean ====
section
/-! SUPPORT. One lemma per field per shared update, so that no later proof unfolds a record update. -/

namespace Sys2Proof.Machine

@[simp] theorem writeParam_plat (s : State) (r : Reg) (v : Word) : (writeParam s r v).plat = s.plat := rfl
@[simp] theorem writeParam_params (s : State) (r : Reg) (v : Word) : (writeParam s r v).params = s.params.write r v := rfl
@[simp] theorem writeParam_status (s : State) (r : Reg) (v : Word) : (writeParam s r v).status = s.status := rfl
@[simp] theorem writeParam_job (s : State) (r : Reg) (v : Word) : (writeParam s r v).job = s.job := rfl
@[simp] theorem writeParam_pending (s : State) (r : Reg) (v : Word) : (writeParam s r v).pending = s.pending := rfl
@[simp] theorem writeParam_tainted (s : State) (r : Reg) (v : Word) : (writeParam s r v).tainted = s.tainted := rfl
@[simp] theorem writeParam_fault (s : State) (r : Reg) (v : Word) : (writeParam s r v).fault = s.fault := rfl
@[simp] theorem writeParam_mem (s : State) (r : Reg) (v : Word) : (writeParam s r v).mem = s.mem := rfl
@[simp] theorem writeParam_hosts (s : State) (r : Reg) (v : Word) : (writeParam s r v).hosts = s.hosts := rfl
@[simp] theorem writeParam_sched (s : State) (r : Reg) (v : Word) : (writeParam s r v).sched = s.sched := rfl
@[simp] theorem writeParam_draws (s : State) (r : Reg) (v : Word) : (writeParam s r v).draws = s.draws := rfl

@[simp] theorem recordFault_plat (s : State) (r : FaultReason) : (recordFault s r).plat = s.plat := rfl
@[simp] theorem recordFault_params (s : State) (r : FaultReason) : (recordFault s r).params = s.params := rfl
@[simp] theorem recordFault_status (s : State) (r : FaultReason) : (recordFault s r).status = s.status := rfl
@[simp] theorem recordFault_job (s : State) (r : FaultReason) : (recordFault s r).job = s.job := rfl
@[simp] theorem recordFault_pending (s : State) (r : FaultReason) : (recordFault s r).pending = s.pending := rfl
@[simp] theorem recordFault_tainted (s : State) (r : FaultReason) : (recordFault s r).tainted = s.tainted := rfl
@[simp] theorem recordFault_fault (s : State) (r : FaultReason) : (recordFault s r).fault = keepFirstFault s.fault r := rfl
@[simp] theorem recordFault_mem (s : State) (r : FaultReason) : (recordFault s r).mem = s.mem := rfl
@[simp] theorem recordFault_hosts (s : State) (r : FaultReason) : (recordFault s r).hosts = s.hosts := rfl
@[simp] theorem recordFault_sched (s : State) (r : FaultReason) : (recordFault s r).sched = s.sched := rfl
@[simp] theorem recordFault_draws (s : State) (r : FaultReason) : (recordFault s r).draws = s.draws := rfl

@[simp] theorem raiseError_plat (s : State) (c : ErrCode) : (raiseError s c).plat = s.plat := rfl
@[simp] theorem raiseError_params (s : State) (c : ErrCode) : (raiseError s c).params = s.params := rfl
@[simp] theorem raiseError_status (s : State) (c : ErrCode) : (raiseError s c).status = s.status.withError c := rfl
@[simp] theorem raiseError_job (s : State) (c : ErrCode) : (raiseError s c).job = s.job := rfl
@[simp] theorem raiseError_pending (s : State) (c : ErrCode) : (raiseError s c).pending = s.pending := rfl
@[simp] theorem raiseError_tainted (s : State) (c : ErrCode) : (raiseError s c).tainted = s.tainted := rfl
@[simp] theorem raiseError_fault (s : State) (c : ErrCode) : (raiseError s c).fault = s.fault := rfl
@[simp] theorem raiseError_mem (s : State) (c : ErrCode) : (raiseError s c).mem = s.mem := rfl
@[simp] theorem raiseError_hosts (s : State) (c : ErrCode) : (raiseError s c).hosts = s.hosts := rfl
@[simp] theorem raiseError_sched (s : State) (c : ErrCode) : (raiseError s c).sched = s.sched := rfl
@[simp] theorem raiseError_draws (s : State) (c : ErrCode) : (raiseError s c).draws = s.draws := rfl

@[simp] theorem acceptCommand_plat (s : State) : (acceptCommand s).plat = s.plat := rfl
@[simp] theorem acceptCommand_params (s : State) : (acceptCommand s).params = s.params := rfl
@[simp] theorem acceptCommand_status (s : State) : (acceptCommand s).status = Status.zero := rfl
@[simp] theorem acceptCommand_job (s : State) : (acceptCommand s).job = s.job := rfl
@[simp] theorem acceptCommand_pending (s : State) : (acceptCommand s).pending = s.pending := rfl
@[simp] theorem acceptCommand_tainted (s : State) : (acceptCommand s).tainted = s.tainted := rfl
@[simp] theorem acceptCommand_fault (s : State) : (acceptCommand s).fault = s.fault := rfl
@[simp] theorem acceptCommand_mem (s : State) : (acceptCommand s).mem = s.mem := rfl
@[simp] theorem acceptCommand_hosts (s : State) : (acceptCommand s).hosts = s.hosts := rfl
@[simp] theorem acceptCommand_sched (s : State) : (acceptCommand s).sched = s.sched := rfl
@[simp] theorem acceptCommand_draws (s : State) : (acceptCommand s).draws = s.draws := rfl

@[simp] theorem ignoreWhileBusy_plat (s : State) : (ignoreWhileBusy s).plat = s.plat := rfl
@[simp] theorem ignoreWhileBusy_params (s : State) : (ignoreWhileBusy s).params = s.params := rfl
@[simp] theorem ignoreWhileBusy_status (s : State) : (ignoreWhileBusy s).status = s.status.withOvr := rfl
@[simp] theorem ignoreWhileBusy_job (s : State) : (ignoreWhileBusy s).job = s.job := rfl
@[simp] theorem ignoreWhileBusy_pending (s : State) : (ignoreWhileBusy s).pending = s.pending := rfl
@[simp] theorem ignoreWhileBusy_tainted (s : State) : (ignoreWhileBusy s).tainted = s.tainted := rfl
@[simp] theorem ignoreWhileBusy_fault (s : State) : (ignoreWhileBusy s).fault = s.fault := rfl
@[simp] theorem ignoreWhileBusy_mem (s : State) : (ignoreWhileBusy s).mem = s.mem := rfl
@[simp] theorem ignoreWhileBusy_hosts (s : State) : (ignoreWhileBusy s).hosts = s.hosts := rfl
@[simp] theorem ignoreWhileBusy_sched (s : State) : (ignoreWhileBusy s).sched = s.sched := rfl
@[simp] theorem ignoreWhileBusy_draws (s : State) : (ignoreWhileBusy s).draws = s.draws := rfl

@[simp] theorem refuseCommand_plat (s : State) (r : FaultReason) (c : ErrCode) : (refuseCommand s r c).plat = s.plat := rfl
@[simp] theorem refuseCommand_params (s : State) (r : FaultReason) (c : ErrCode) : (refuseCommand s r c).params = s.params := rfl
@[simp] theorem refuseCommand_status (s : State) (r : FaultReason) (c : ErrCode) : (refuseCommand s r c).status = s.status.withError c := rfl
@[simp] theorem refuseCommand_job (s : State) (r : FaultReason) (c : ErrCode) : (refuseCommand s r c).job = s.job := rfl
@[simp] theorem refuseCommand_pending (s : State) (r : FaultReason) (c : ErrCode) : (refuseCommand s r c).pending = s.pending := rfl
@[simp] theorem refuseCommand_tainted (s : State) (r : FaultReason) (c : ErrCode) : (refuseCommand s r c).tainted = s.tainted := rfl
@[simp] theorem refuseCommand_fault (s : State) (r : FaultReason) (c : ErrCode) : (refuseCommand s r c).fault = keepFirstFault s.fault r := rfl
@[simp] theorem refuseCommand_mem (s : State) (r : FaultReason) (c : ErrCode) : (refuseCommand s r c).mem = s.mem := rfl
@[simp] theorem refuseCommand_hosts (s : State) (r : FaultReason) (c : ErrCode) : (refuseCommand s r c).hosts = s.hosts := rfl
@[simp] theorem refuseCommand_sched (s : State) (r : FaultReason) (c : ErrCode) : (refuseCommand s r c).sched = s.sched := rfl
@[simp] theorem refuseCommand_draws (s : State) (r : FaultReason) (c : ErrCode) : (refuseCommand s r c).draws = s.draws := rfl

@[simp] theorem startJob_plat (j : Job) (s : State) : (startJob j s).plat = s.plat := rfl
@[simp] theorem startJob_params (j : Job) (s : State) : (startJob j s).params = s.params := rfl
@[simp] theorem startJob_status (j : Job) (s : State) : (startJob j s).status = s.status.withBusy := rfl
@[simp] theorem startJob_job (j : Job) (s : State) : (startJob j s).job = some j := rfl
@[simp] theorem startJob_pending (j : Job) (s : State) : (startJob j s).pending = j.units := rfl
@[simp] theorem startJob_tainted (j : Job) (s : State) : (startJob j s).tainted = false := rfl
@[simp] theorem startJob_fault (j : Job) (s : State) : (startJob j s).fault = s.fault := rfl
@[simp] theorem startJob_mem (j : Job) (s : State) : (startJob j s).mem = s.mem := rfl
@[simp] theorem startJob_hosts (j : Job) (s : State) : (startJob j s).hosts = s.hosts := rfl
@[simp] theorem startJob_sched (j : Job) (s : State) : (startJob j s).sched = s.sched := rfl
@[simp] theorem startJob_draws (j : Job) (s : State) : (startJob j s).draws = s.draws := rfl

@[simp] theorem completeJob_plat (s : State) : (completeJob s).plat = s.plat := rfl
@[simp] theorem completeJob_params (s : State) : (completeJob s).params = s.params := rfl
@[simp] theorem completeJob_status (s : State) : (completeJob s).status = s.status.completed := rfl
@[simp] theorem completeJob_job (s : State) : (completeJob s).job = none := rfl
@[simp] theorem completeJob_pending (s : State) : (completeJob s).pending = [] := rfl
@[simp] theorem completeJob_tainted (s : State) : (completeJob s).tainted = false := rfl
@[simp] theorem completeJob_fault (s : State) : (completeJob s).fault = s.fault := rfl
@[simp] theorem completeJob_mem (s : State) : (completeJob s).mem = s.mem := rfl
@[simp] theorem completeJob_hosts (s : State) : (completeJob s).hosts = s.hosts := rfl
@[simp] theorem completeJob_sched (s : State) : (completeJob s).sched = s.sched := rfl
@[simp] theorem completeJob_draws (s : State) : (completeJob s).draws = s.draws := rfl

@[simp] theorem assertReset_plat (s : State) : (assertReset s).plat = s.plat := rfl
@[simp] theorem assertReset_params (s : State) : (assertReset s).params = Params.atReset := rfl
@[simp] theorem assertReset_status (s : State) : (assertReset s).status = Status.zero := rfl
@[simp] theorem assertReset_job (s : State) : (assertReset s).job = none := rfl
@[simp] theorem assertReset_pending (s : State) : (assertReset s).pending = [] := rfl
@[simp] theorem assertReset_tainted (s : State) : (assertReset s).tainted = false := rfl
@[simp] theorem assertReset_fault (s : State) : (assertReset s).fault = s.fault := rfl
@[simp] theorem assertReset_mem (s : State) : (assertReset s).mem = s.mem := rfl
@[simp] theorem assertReset_hosts (s : State) : (assertReset s).hosts = s.hosts := rfl
@[simp] theorem assertReset_sched (s : State) : (assertReset s).sched = s.sched := rfl
@[simp] theorem assertReset_draws (s : State) : (assertReset s).draws = s.draws := rfl

@[simp] theorem hazardWrite_plat (s : State) (a : Nat) : (hazardWrite s a).plat = s.plat := rfl
@[simp] theorem hazardWrite_params (s : State) (a : Nat) : (hazardWrite s a).params = s.params := rfl
@[simp] theorem hazardWrite_status (s : State) (a : Nat) : (hazardWrite s a).status = s.status := rfl
@[simp] theorem hazardWrite_job (s : State) (a : Nat) : (hazardWrite s a).job = s.job := rfl
@[simp] theorem hazardWrite_pending (s : State) (a : Nat) : (hazardWrite s a).pending = s.pending := rfl
@[simp] theorem hazardWrite_tainted (s : State) (a : Nat) : (hazardWrite s a).tainted = true := rfl
@[simp] theorem hazardWrite_fault (s : State) (a : Nat) : (hazardWrite s a).fault = keepFirstFault s.fault .hzWrite := rfl
@[simp] theorem hazardWrite_mem (s : State) (a : Nat) : (hazardWrite s a).mem = Cells.write s.mem a (Config.freeByte s.draws) := rfl
@[simp] theorem hazardWrite_hosts (s : State) (a : Nat) : (hazardWrite s a).hosts = s.hosts := rfl
@[simp] theorem hazardWrite_sched (s : State) (a : Nat) : (hazardWrite s a).sched = s.sched := rfl
@[simp] theorem hazardWrite_draws (s : State) (a : Nat) : (hazardWrite s a).draws = s.draws + 1 := rfl

@[simp] theorem withHost_plat (s : State) (k : Nat) (h : HostAgent) : (withHost s k h).plat = s.plat := rfl
@[simp] theorem withHost_params (s : State) (k : Nat) (h : HostAgent) : (withHost s k h).params = s.params := rfl
@[simp] theorem withHost_status (s : State) (k : Nat) (h : HostAgent) : (withHost s k h).status = s.status := rfl
@[simp] theorem withHost_job (s : State) (k : Nat) (h : HostAgent) : (withHost s k h).job = s.job := rfl
@[simp] theorem withHost_pending (s : State) (k : Nat) (h : HostAgent) : (withHost s k h).pending = s.pending := rfl
@[simp] theorem withHost_tainted (s : State) (k : Nat) (h : HostAgent) : (withHost s k h).tainted = s.tainted := rfl
@[simp] theorem withHost_fault (s : State) (k : Nat) (h : HostAgent) : (withHost s k h).fault = s.fault := rfl
@[simp] theorem withHost_mem (s : State) (k : Nat) (h : HostAgent) : (withHost s k h).mem = s.mem := rfl
@[simp] theorem withHost_hosts (s : State) (k : Nat) (h : HostAgent) : (withHost s k h).hosts = s.hosts.set k h := rfl
@[simp] theorem withHost_sched (s : State) (k : Nat) (h : HostAgent) : (withHost s k h).sched = s.sched := rfl
@[simp] theorem withHost_draws (s : State) (k : Nat) (h : HostAgent) : (withHost s k h).draws = s.draws := rfl

@[simp] theorem Status.zero_busy : Status.zero.busy = false := rfl
@[simp] theorem Status.zero_done : Status.zero.done = false := rfl
@[simp] theorem Status.zero_err : Status.zero.err = false := rfl
@[simp] theorem Status.zero_ovr : Status.zero.ovr = false := rfl
@[simp] theorem Status.zero_errCode : Status.zero.errCode = 0 := rfl
@[simp] theorem Status.withOvr_busy (st : Status) : st.withOvr.busy = st.busy := rfl
@[simp] theorem Status.withOvr_done (st : Status) : st.withOvr.done = st.done := rfl
@[simp] theorem Status.withOvr_err (st : Status) : st.withOvr.err = st.err := rfl
@[simp] theorem Status.withOvr_ovr (st : Status) : st.withOvr.ovr = true := rfl
@[simp] theorem Status.withOvr_errCode (st : Status) : st.withOvr.errCode = st.errCode := rfl
@[simp] theorem Status.withError_busy (st : Status) (c : ErrCode) : (st.withError c).busy = st.busy := rfl
@[simp] theorem Status.withError_done (st : Status) (c : ErrCode) : (st.withError c).done = st.done := rfl
@[simp] theorem Status.withError_err (st : Status) (c : ErrCode) : (st.withError c).err = true := rfl
@[simp] theorem Status.withError_ovr (st : Status) (c : ErrCode) : (st.withError c).ovr = st.ovr := rfl
@[simp] theorem Status.withError_errCode (st : Status) (c : ErrCode) : (st.withError c).errCode = c.toBits := rfl
@[simp] theorem Status.withBusy_busy (st : Status) : st.withBusy.busy = true := rfl
@[simp] theorem Status.withBusy_done (st : Status) : st.withBusy.done = st.done := rfl
@[simp] theorem Status.withBusy_err (st : Status) : st.withBusy.err = st.err := rfl
@[simp] theorem Status.withBusy_ovr (st : Status) : st.withBusy.ovr = st.ovr := rfl
@[simp] theorem Status.withBusy_errCode (st : Status) : st.withBusy.errCode = st.errCode := rfl
@[simp] theorem Status.completed_busy (st : Status) : st.completed.busy = false := rfl
@[simp] theorem Status.completed_done (st : Status) : st.completed.done = true := rfl
@[simp] theorem Status.completed_err (st : Status) : st.completed.err = st.err := rfl
@[simp] theorem Status.completed_ovr (st : Status) : st.completed.ovr = st.ovr := rfl
@[simp] theorem Status.completed_errCode (st : Status) : st.completed.errCode = st.errCode := rfl

end Sys2Proof.Machine
end

