-- ==== Sys2Proof/Laws/Command.lean ====
section
/-! SUPPORT. What the handling of a CMD write can do (spec 60_exceptions.md R160), said once. -/

namespace Sys2Proof.Machine

/-- Every meaning is the shared handling of a CMD write, for its operation and its L field. -/
theorem exec_eq (i : Instr) (s : State) : exec i s = .next (commandWrite i.op i.legacyBit s) := by
  cases i <;> rfl

/-- The six ways a decoded command word is handled, in the order of R171. -/
theorem commandWrite_cases (op : Op) (l : Bool) (s : State) :
    (s.status.busy = true ∧ commandWrite op l s = ignoreWhileBusy s) ∨
    (s.status.busy = false ∧ dimsLegal s.params = false ∧
      commandWrite op l s = refuseCommand (acceptCommand s) .preDim .errDim) ∨
    (s.status.busy = false ∧ dimsLegal s.params = true ∧ stridesLegal op s.params = false ∧
      commandWrite op l s = refuseCommand (acceptCommand s) .preStride .errStride) ∨
    (s.status.busy = false ∧ dimsLegal s.params = true ∧ stridesLegal op s.params = true ∧
      rangeLegal s.plat (candidateJob op l s.params) = false ∧
      commandWrite op l s = refuseCommand (acceptCommand s) .preRange .errRange) ∨
    (s.status.busy = false ∧ dimsLegal s.params = true ∧ stridesLegal op s.params = true ∧
      rangeLegal s.plat (candidateJob op l s.params) = true ∧ planesDisjoint (candidateJob op l s.params) = false ∧
      commandWrite op l s = refuseCommand (acceptCommand s) .preAlias .errAlias) ∨
    (s.status.busy = false ∧ dimsLegal s.params = true ∧ stridesLegal op s.params = true ∧
      rangeLegal s.plat (candidateJob op l s.params) = true ∧ planesDisjoint (candidateJob op l s.params) = true ∧
      commandWrite op l s = startJob (candidateJob op l s.params) (acceptCommand s)) := by
  unfold commandWrite
  cases s.status.busy <;> cases dimsLegal s.params <;> cases stridesLegal op s.params <;>
    cases rangeLegal s.plat (candidateJob op l s.params) <;> cases planesDisjoint (candidateJob op l s.params) <;> simp

/-- A word written to CMD is a command's meaning or the refusal of a reserved word. -/
theorem cmdWrite_cases (w : Word) (s : State) :
    (∃ i, decode w = some i ∧ cmdWrite w s = exec i s) ∨ (decode w = none ∧ cmdWrite w s = .next (refuseReserved s)) := by
  unfold cmdWrite
  cases hd : decode w with
  | none => exact .inr ⟨rfl, rfl⟩
  | some i => exact .inl ⟨i, rfl, rfl⟩

/-- The dimension check, in the registers' signed values (R165). -/
theorem dimsLegal_iff {p : Params} : dimsLegal p = true ↔
    (0 ≤ p.width.toInt ∧ p.width.toInt % 2 = 0) ∧ (0 ≤ p.height.toInt ∧ p.height.toInt % 2 = 0) := by
  simp only [dimsLegal, dimLegal, Bool.and_eq_true, decide_eq_true_eq]

/-- A candidate job that passed every check of R160 is a checked job. -/
theorem candidateJob_checked {op : Op} {l : Bool} {p : Params} {q : Platform} (hd : dimsLegal p = true)
    (hs : stridesLegal op p = true) (hl : op = .yuy2 → l = false) (hr : rangeLegal q (candidateJob op l p) = true)
    (ha : planesDisjoint (candidateJob op l p) = true) : JobChecked q (candidateJob op l p) := by
  rw [dimsLegal_iff] at hd
  refine ⟨?_, ?_, ?_, hr, ha⟩
  · show p.width.toInt.toNat % 2 = 0
    omega
  · show p.height.toInt.toNat % 2 = 0
    omega
  · cases op
    case yuy2 => exact ⟨rfl, rfl, rfl, hl rfl⟩
    all_goals
      simp only [stridesLegal, Bool.and_eq_true, decide_eq_true_eq] at hs
      show _ ∧ _ ∧ _
      simp only [candidateJob]
      omega

end Sys2Proof.Machine
end

