-- ==== Sys2Proof/Laws/Footprint.lean ====
section
/-! SUPPORT. What the spans, checks and units of a job mean as sets of addresses: the lemmas that carry a check the
machine computes to the footprint sets of Safety.lean and back. -/

namespace Sys2Proof.Machine

theorem covers_iff {f : List Span} {a : Nat} :
    covers f a = true ↔ ∃ p ∈ f, p.start ≤ a ∧ a < p.start + p.len := by
  simp [covers]

theorem covers_append {f g : List Span} {a : Nat} :
    covers (f ++ g) a = true ↔ covers f a = true ∨ covers g a = true := by
  simp [covers]

theorem covers_rowSpans {base stride rows len a : Nat} :
    covers (rowSpans base stride rows len) a = true ↔ InRows base stride rows len a := by
  simp [covers_iff, rowSpans, InRows]

theorem covers_single {s l a : Nat} : covers [{ start := s, len := l }] a = true ↔ s ≤ a ∧ a < s + l := by
  simp [covers_iff]

/-- The disjointness check is about exact byte sets (60_exceptions.md R168). -/
theorem disjoint_iff {f g : List Span} :
    disjoint f g = true ↔ ∀ a, ¬ (covers f a = true ∧ covers g a = true) := by
  constructor
  · rintro h a ⟨hf, hg⟩
    obtain ⟨p, hp, hpa, hpb⟩ := covers_iff.mp hf
    obtain ⟨q, hq, hqa, hqb⟩ := covers_iff.mp hg
    have := List.all_eq_true.mp (List.all_eq_true.mp h p hp) q hq
    simp only [Bool.or_eq_true, decide_eq_true_eq] at this
    omega
  · intro h
    refine List.all_eq_true.mpr fun p hp => List.all_eq_true.mpr fun q hq => ?_
    simp only [Bool.or_eq_true, decide_eq_true_eq]
    by_contra hc
    refine h (max p.start q.start) ⟨covers_iff.mpr ⟨p, hp, ?_, ?_⟩, covers_iff.mpr ⟨q, hq, ?_, ?_⟩⟩ <;> omega

theorem accessible_iff {p : Platform} {f : List Span} :
    accessible p f = true ↔ ∀ a, covers f a = true → memOk p a = true := by
  constructor
  · intro h a ha
    obtain ⟨q, hq, h1, h2⟩ := covers_iff.mp ha
    have := List.all_eq_true.mp (List.all_eq_true.mp h q hq) (a - q.start) (List.mem_range.mpr (by omega))
    rwa [Nat.add_sub_cancel' h1] at this
  · intro h
    refine List.all_eq_true.mpr fun q hq => List.all_eq_true.mpr fun k hk => h _ ?_
    exact covers_iff.mpr ⟨q, hq, by omega, by have := List.mem_range.mp hk; omega⟩

theorem covers_src {j : Job} {a : Nat} : covers j.srcFootprint a = true ↔ j.InSrcFP a := by
  unfold Job.srcFootprint Job.InSrcFP
  cases j.op <;> simp only [covers_rowSpans, covers_single]

theorem covers_y {j : Job} {a : Nat} : covers j.yFootprint a = true ↔ j.InYFP a := by
  unfold Job.yFootprint Job.InYFP
  cases j.op <;> simp only [covers_rowSpans, covers_single]

theorem covers_chroma {j : Job} {base a : Nat} : covers (j.chromaFootprint base) a = true ↔ j.InChromaFP base a := by
  unfold Job.chromaFootprint Job.InChromaFP
  cases j.op <;> simp only [covers_rowSpans, covers_single]

theorem covers_dst {j : Job} {a : Nat} : covers j.dstFootprint a = true ↔ j.InDstFP a := by
  simp only [Job.dstFootprint, covers_append, covers_y, Job.uFootprint, Job.vFootprint, covers_chroma, Job.InDstFP,
    or_assoc]

/-- ERR_RANGE is not raised exactly when every footprint byte is accessible (60_exceptions.md R167). -/
theorem rangeLegal_iff {p : Platform} {j : Job} : rangeLegal p j = true ↔ j.AllMemOk p := by
  simp only [rangeLegal, Bool.and_eq_true, accessible_iff, covers_src, covers_y, Job.uFootprint, Job.vFootprint,
    covers_chroma, Job.AllMemOk, Job.InDstFP]
  constructor
  · rintro ⟨⟨⟨h1, h2⟩, h3⟩, h4⟩ a (h | h | h | h)
    exacts [h1 a h, h2 a h, h3 a h, h4 a h]
  · intro h
    exact ⟨⟨⟨fun a ha => h a (.inl ha), fun a ha => h a (.inr (.inl ha))⟩, fun a ha => h a (.inr (.inr (.inl ha)))⟩,
      fun a ha => h a (.inr (.inr (.inr ha)))⟩

/-- ERR_ALIAS is not raised exactly when no byte is in two footprints (60_exceptions.md R168). -/
theorem planesDisjoint_iff {j : Job} : planesDisjoint j = true ↔ ¬ j.SharesByte := by
  simp only [planesDisjoint, Bool.and_eq_true, disjoint_iff, covers_src, covers_y, Job.uFootprint, Job.vFootprint,
    covers_chroma, Job.SharesByte]
  constructor
  · rintro ⟨⟨⟨⟨⟨h1, h2⟩, h3⟩, h4⟩, h5⟩, h6⟩ ⟨a, h | h | h | h | h | h⟩
    exacts [h1 a h, h2 a h, h3 a h, h4 a h, h5 a h, h6 a h]
  · intro h
    exact ⟨⟨⟨⟨⟨fun a ha => h ⟨a, .inl ha⟩, fun a ha => h ⟨a, .inr (.inl ha)⟩⟩,
      fun a ha => h ⟨a, .inr (.inr (.inl ha))⟩⟩, fun a ha => h ⟨a, .inr (.inr (.inr (.inl ha)))⟩⟩,
      fun a ha => h ⟨a, .inr (.inr (.inr (.inr (.inl ha))))⟩⟩, fun a ha => h ⟨a, .inr (.inr (.inr (.inr (.inr ha))))⟩⟩

/-- `units(J)` (10_state.md R34). -/
theorem mem_units {j : Job} {u : WorkUnit} : u ∈ j.units ↔ u.row < j.h ∧ u.col < j.unitCols := by
  obtain ⟨i, k⟩ := u
  simp [Job.units]

theorem units_nodup (j : Job) : j.units.Nodup := by
  unfold Job.units
  refine List.nodup_flatMap.mpr ⟨fun i _ => ?_, ?_⟩
  · exact List.Nodup.map (fun a b h => by simpa using h) List.nodup_range
  · refine List.Nodup.pairwise_of_forall_ne List.nodup_range fun i _ k _ hik => ?_
    intro u hu hu'
    simp only [List.mem_map] at hu hu'
    obtain ⟨_, _, rfl⟩ := hu
    obtain ⟨_, _, h⟩ := hu'
    exact hik (by simpa using (congrArg WorkUnit.row h).symm)

/-- What a unit writes depends only on the bytes it reads. -/
theorem unitWrites_congr {j : Job} {u : WorkUnit} {m m' : Memory}
    (h : ∀ a ∈ unitReads j u, Cells.read m a = Cells.read m' a) : unitWrites m j u = unitWrites m' j u := by
  unfold unitReads at h
  unfold unitWrites
  cases hop : j.op <;> simp only [hop] at h ⊢
  · simp only [readsRgb32, List.mem_cons, List.not_mem_nil, or_false, forall_eq_or_imp, forall_eq] at h
    simp only [unitRgb32, h.1, h.2.1, h.2.2.1]
  · simp only [readsRgb24, List.mem_cons, List.not_mem_nil, or_false, forall_eq_or_imp, forall_eq] at h
    simp only [unitRgb24, h.1, h.2.1, h.2.2]
  · unfold readsYuy2 at h
    unfold unitYuy2
    by_cases hc : chromaRow u = true
    · simp only [hc, if_true, List.mem_cons, List.not_mem_nil, or_false, forall_eq_or_imp, forall_eq] at h ⊢
      simp only [h.1, h.2.1, h.2.2.1, h.2.2.2]
    · rw [if_neg hc] at h
      rw [if_neg hc, if_neg hc]
      simp only [List.mem_cons, List.not_mem_nil, or_false, forall_eq_or_imp, forall_eq] at h
      simp only [h.1, h.2]

/-- The addresses a unit stores to do not depend on memory. -/
theorem unitWrites_addrs (m m' : Memory) (j : Job) (u : WorkUnit) :
    (unitWrites m j u).map Prod.fst = (unitWrites m' j u).map Prod.fst := by
  unfold unitWrites
  cases j.op
  · simp only [unitRgb32, rgbWrites]; split <;> simp only [List.map_cons, List.map_nil]
  · simp only [unitRgb24, rgbWrites]; split <;> simp only [List.map_cons, List.map_nil]
  · simp only [unitYuy2]; split <;> simp only [List.map_cons, List.map_nil]

end Sys2Proof.Machine
end

