-- ==== Sys2Proof/Laws/Memory.lean ====
section
/-! SUPPORT. The laws of cells by address: read after write, the canonical form kept, and the writes of a unit. -/

namespace Sys2Proof.Machine

variable {n : Nat}

theorem Cells.wfFrom_mono {m : List (Nat × BitVec n)} {lo lo' : Nat} (h : Cells.wfFrom lo m = true) (hl : lo' ≤ lo) :
    Cells.wfFrom lo' m = true := by
  cases m with
  | nil => rfl
  | cons c rest =>
    obtain ⟨k, v⟩ := c
    simp only [Cells.wfFrom, Bool.and_eq_true, decide_eq_true_eq] at h ⊢
    exact ⟨⟨by omega, h.1.2⟩, h.2⟩

/-- Below the first possible address everything reads 0. -/
theorem Cells.read_below {m : List (Nat × BitVec n)} {lo a : Nat} (h : Cells.wfFrom lo m = true) (ha : a < lo) :
    Cells.read m a = 0#n := by
  induction m generalizing lo with
  | nil => rfl
  | cons c rest ih =>
    obtain ⟨k, v⟩ := c
    simp only [Cells.wfFrom, Bool.and_eq_true, decide_eq_true_eq] at h
    have hne : k ≠ a := by omega
    simp only [Cells.read, hne, if_false]
    exact ih h.2 (by omega)

theorem Cells.wfFrom_write {m : List (Nat × BitVec n)} {lo a : Nat} (v : BitVec n) (h : Cells.wfFrom lo m = true)
    (ha : lo ≤ a) : Cells.wfFrom lo (Cells.write m a v) = true := by
  induction m generalizing lo with
  | nil =>
    by_cases hv : v = 0#n
    · simp [Cells.write, hv, Cells.wfFrom]
    · simp only [Cells.write, hv, if_false, Cells.wfFrom, Bool.and_true, Bool.and_eq_true, decide_eq_true_eq]
      exact ⟨ha, hv⟩
  | cons c rest ih =>
    obtain ⟨k, w⟩ := c
    have h0 := h
    simp only [Cells.wfFrom, Bool.and_eq_true, decide_eq_true_eq] at h
    unfold Cells.write
    by_cases hak : a < k
    · by_cases hv : v = 0#n
      · simpa [hak, hv] using h0
      · simp only [hak, hv, if_true, if_false, Cells.wfFrom, Bool.and_eq_true, decide_eq_true_eq]
        exact ⟨⟨ha, hv⟩, ⟨by omega, h.1.2⟩, h.2⟩
    · by_cases hek : a = k
      · subst hek
        by_cases hv : v = 0#n
        · simp only [hv, lt_irrefl, if_true, if_false]
          exact Cells.wfFrom_mono h.2 (by omega)
        · simp only [hv, lt_irrefl, if_true, if_false, Cells.wfFrom, Bool.and_eq_true, decide_eq_true_eq]
          exact ⟨⟨ha, hv⟩, h.2⟩
      · simp only [hak, hek, if_false, Cells.wfFrom, Bool.and_eq_true, decide_eq_true_eq]
        exact ⟨h.1, ih h.2 (by omega)⟩

/-- Every write keeps the canonical form. -/
theorem Cells.wf_write {m : List (Nat × BitVec n)} (a : Nat) (v : BitVec n) (h : Cells.wf m = true) :
    Cells.wf (Cells.write m a v) = true :=
  Cells.wfFrom_write v h (Nat.zero_le _)

theorem Cells.read_write_from {m : List (Nat × BitVec n)} {lo : Nat} (a b : Nat) (v : BitVec n)
    (h : Cells.wfFrom lo m = true) : Cells.read (Cells.write m a v) b = if b = a then v else Cells.read m b := by
  induction m generalizing lo with
  | nil =>
    by_cases hv : v = 0#n <;> by_cases hb : b = a
    · simp [Cells.write, Cells.read, hv]
    · simp [Cells.write, Cells.read, hv]
    · simp [Cells.write, Cells.read, hv, hb]
    · simp [Cells.write, Cells.read, hv, hb, Ne.symm hb]
  | cons c rest ih =>
    obtain ⟨k, w⟩ := c
    have h0 := h
    simp only [Cells.wfFrom, Bool.and_eq_true, decide_eq_true_eq] at h
    unfold Cells.write
    by_cases hak : a < k
    · by_cases hv : v = 0#n
      · simp only [hak, hv, if_true]
        by_cases hb : b = a
        · subst hb
          have hk : Cells.wfFrom k ((k, w) :: rest) = true := by
            simp only [Cells.wfFrom, Bool.and_eq_true, decide_eq_true_eq]; exact ⟨⟨le_refl _, h.1.2⟩, h.2⟩
          simp [Cells.read_below hk hak]
        · simp [hb]
      · by_cases hb : b = a
        · simp [hak, hv, Cells.read, hb]
        · simp [hak, hv, Cells.read, hb, Ne.symm hb]
    · by_cases hek : a = k
      · subst hek
        by_cases hv : v = 0#n
        · simp only [hv, lt_irrefl, if_true, if_false]
          by_cases hb : b = a
          · subst hb; simp [Cells.read_below h.2 (Nat.lt_succ_self _)]
          · simp [Cells.read, hb, Ne.symm hb]
        · by_cases hb : b = a
          · simp [hv, Cells.read, hb]
          · simp [hv, Cells.read, hb, Ne.symm hb]
      · simp only [hak, hek, if_false, Cells.read, ih h.2]
        by_cases hkb : k = b
        · subst hkb; simp [Ne.symm hek]
        · simp [hkb]

/-- A read after a write: the value written there, the old value elsewhere. -/
theorem Cells.read_write {m : List (Nat × BitVec n)} (h : Cells.wf m = true) (a b : Nat) (v : BitVec n) :
    Cells.read (Cells.write m a v) b = if b = a then v else Cells.read m b :=
  Cells.read_write_from a b v h

/-- Two canonical forms that read alike are the same data. -/
theorem Cells.eq_of_read {m m' : List (Nat × BitVec n)} {lo : Nat} (h : Cells.wfFrom lo m = true)
    (h' : Cells.wfFrom lo m' = true) (hr : ∀ a, Cells.read m a = Cells.read m' a) : m = m' := by
  induction m generalizing m' lo with
  | nil =>
    cases m' with
    | nil => rfl
    | cons c rest =>
      obtain ⟨k, v⟩ := c
      simp only [Cells.wfFrom, Bool.and_eq_true, decide_eq_true_eq] at h'
      have := hr k
      simp only [Cells.read, if_true] at this
      exact absurd this.symm h'.1.2
  | cons c rest ih =>
    obtain ⟨k, v⟩ := c
    have h0 := h
    simp only [Cells.wfFrom, Bool.and_eq_true, decide_eq_true_eq] at h
    cases m' with
    | nil =>
      have := hr k
      simp only [Cells.read, if_true] at this
      exact absurd this h.1.2
    | cons c' rest' =>
      obtain ⟨k', v'⟩ := c'
      have h0' := h'
      simp only [Cells.wfFrom, Bool.and_eq_true, decide_eq_true_eq] at h'
      have hkk : k = k' := by
        rcases Nat.lt_trichotomy k k' with hlt | heq | hgt
        · have := hr k
          rw [Cells.read_below (m := (k', v') :: rest') (lo := k') (by
            simp only [Cells.wfFrom, Bool.and_eq_true, decide_eq_true_eq]; exact ⟨⟨le_refl _, h'.1.2⟩, h'.2⟩) hlt] at this
          simp only [Cells.read, if_true] at this
          exact absurd this h.1.2
        · exact heq
        · have := hr k'
          rw [Cells.read_below (m := (k, v) :: rest) (lo := k) (by
            simp only [Cells.wfFrom, Bool.and_eq_true, decide_eq_true_eq]; exact ⟨⟨le_refl _, h.1.2⟩, h.2⟩) hgt] at this
          simp only [Cells.read, if_true] at this
          exact absurd this.symm h'.1.2
      subst hkk
      have hv : v = v' := by simpa [Cells.read] using hr k
      subst hv
      have : rest = rest' := by
        refine ih h.2 h'.2 fun a => ?_
        by_cases hak : k = a
        · subst hak
          rw [Cells.read_below h.2 (Nat.lt_succ_self _), Cells.read_below h'.2 (Nat.lt_succ_self _)]
        · simpa [Cells.read, hak] using hr a
      rw [this]

/-- The writes of a unit keep the canonical form. -/
theorem storeAll_wf {ws : List (Nat × Byte)} {m : Memory} (h : Memory.wf m = true) :
    Memory.wf (storeAll m ws) = true := by
  induction ws generalizing m with
  | nil => exact h
  | cons w rest ih => exact ih (Cells.wf_write w.1 w.2 h)

/-- Memory right after reset is in its canonical form. -/
theorem reset_memory_wf : Memory.wf State.reset.mem = true := rfl

/-- The frame of a unit's writes: every other byte reads as before. -/
theorem read_storeAll_frame {ws : List (Nat × Byte)} {m : Memory} (h : Memory.wf m = true) {a : Nat}
    (ha : a ∉ ws.map Prod.fst) : Cells.read (storeAll m ws) a = Cells.read m a := by
  induction ws generalizing m with
  | nil => rfl
  | cons w rest ih =>
    simp only [List.map_cons, List.mem_cons, not_or] at ha
    show Cells.read (storeAll (Cells.write m w.1 w.2) rest) a = _
    rw [ih (Cells.wf_write w.1 w.2 h) ha.2, Cells.read_write h, if_neg ha.1]

/-- What is stored, when no address is stored to twice. -/
theorem read_storeAll_mem {ws : List (Nat × Byte)} {m : Memory} (h : Memory.wf m = true)
    (hn : (ws.map Prod.fst).Nodup) {w : Nat × Byte} (hw : w ∈ ws) : Cells.read (storeAll m ws) w.1 = w.2 := by
  induction ws generalizing m with
  | nil => cases hw
  | cons x rest ih =>
    simp only [List.map_cons, List.nodup_cons] at hn
    have hwf := Cells.wf_write (m := m) x.1 x.2 h
    show Cells.read (storeAll (Cells.write m x.1 x.2) rest) w.1 = _
    rcases List.mem_cons.mp hw with rfl | hr
    · rw [read_storeAll_frame hwf hn.1, Cells.read_write h, if_pos rfl]
    · exact ih hwf hn.2 hr

/-- Free values are stored where the unit would store. -/
@[simp] theorem freeWrites_addrs (d : Nat) (ws : List (Nat × Byte)) :
    (freeWrites d ws).map Prod.fst = ws.map Prod.fst := by
  induction ws generalizing d with
  | nil => rfl
  | cons w rest ih => simp [freeWrites, ih]

end Sys2Proof.Machine
end

