-- ==== Sys2Proof/Laws/Units.lean ====
section
/-! SUPPORT. Where the units of a checked job read and store. -/

namespace Sys2Proof.Machine

/-- Rows of `len ≤ stride` bytes do not overlap: an address inside one determines its row and its place in it. -/
theorem rowCol_inj {stride len i i' x x' : Nat} (hl : len ≤ stride) (hx : x < len) (hx' : x' < len)
    (h : i * stride + x = i' * stride + x') : i = i' ∧ x = x' := by
  have hi : i = i' := by
    rcases Nat.lt_trichotomy i i' with hlt | heq | hgt
    · have := Nat.mul_le_mul_right stride (Nat.succ_le_of_lt hlt)
      rw [Nat.succ_mul] at this
      omega
    · exact heq
    · have := Nat.mul_le_mul_right stride (Nat.succ_le_of_lt hgt)
      rw [Nat.succ_mul] at this
      omega
  subst hi
  exact ⟨rfl, by omega⟩

/-- A place in row `i` of `rows` tightly packed rows is inside the block of `len * rows` bytes. -/
theorem tight_place {len rows i x : Nat} (hi : i < rows) (hx : x < len) : i * len + x < len * rows := by
  have := Nat.mul_le_mul_right len (Nat.succ_le_of_lt hi)
  rw [Nat.succ_mul, Nat.mul_comm rows len] at this
  omega

/-- A unit reads bytes of the source footprint only (20_memory.md R63). -/
theorem unitReads_inSrc {p : Platform} {j : Job} {u : WorkUnit} (hj : JobChecked p j) (hu : u ∈ j.units) {a : Nat}
    (ha : a ∈ unitReads j u) : j.InSrcFP a := by
  have hs := hj.strides
  have hw := hj.evenWidth
  rw [mem_units] at hu
  unfold unitReads at ha
  unfold Job.InSrcFP
  unfold Job.stridesOk at hs
  unfold Job.unitCols at hu
  cases hop : j.op <;> simp only [hop] at ha hs hu ⊢
  · simp only [readsRgb32, pixelAddr, List.mem_cons, List.not_mem_nil, or_false] at ha
    exact ⟨u.row, hu.1, by omega, by omega⟩
  · simp only [readsRgb24, pixelAddr, List.mem_cons, List.not_mem_nil, or_false] at ha
    exact ⟨u.row, hu.1, by omega, by omega⟩
  · have hmem : a = macroAddr j u ∨ a = macroAddr j u + 1 ∨ a = macroAddr j u + 2 ∨ a = macroAddr j u + 3 := by
      unfold readsYuy2 at ha
      split at ha <;> simp only [List.mem_cons, List.not_mem_nil, or_false] at ha <;> omega
    have := tight_place (len := 2 * j.w) (x := 4 * u.col + 3) hu.1 (by omega)
    simp only [macroAddr] at hmem
    omega

/-- The addresses an RGB pixel stores to. -/
theorem rgbWrites_addrs (j : Job) (u : WorkUnit) (r g b : Int) : (rgbWrites j u r g b).map Prod.fst =
    if carriesChroma u = true then [rgbYAddr j u, rgbChromaAddr j j.u u, rgbChromaAddr j j.v u] else [rgbYAddr j u] := by
  unfold rgbWrites
  split <;> simp only [List.map_cons, List.map_nil]

/-- The addresses a YUY2 macropixel stores to. -/
theorem yuy2Writes_addrs (m : Memory) (j : Job) (u : WorkUnit) : (unitYuy2 m j u).map Prod.fst =
    if chromaRow u = true then [yuy2YAddr j u, yuy2YAddr j u + 1, yuy2ChromaAddr j j.u u, yuy2ChromaAddr j j.v u]
    else [yuy2YAddr j u, yuy2YAddr j u + 1] := by
  unfold unitYuy2
  split <;> simp only [List.map_cons, List.map_nil]

/-- A unit of a checked job stores to the destination footprint only (20_memory.md R62). -/
theorem unitWrites_inDst {p : Platform} {j : Job} {u : WorkUnit} {m : Memory} (hj : JobChecked p j) (hu : u ∈ j.units)
    {a : Nat} (ha : a ∈ (unitWrites m j u).map Prod.fst) : j.InDstFP a := by
  have hw := hj.evenWidth
  have hh := hj.evenHeight
  rw [mem_units] at hu
  unfold unitWrites at ha
  unfold Job.unitCols at hu
  unfold Job.InDstFP Job.InYFP Job.InChromaFP
  cases hop : j.op <;> simp only [hop] at ha hu ⊢
  all_goals
    first
    | rw [unitRgb32, rgbWrites_addrs] at ha
    | rw [unitRgb24, rgbWrites_addrs] at ha
    | rw [yuy2Writes_addrs] at ha
  case rgb32 =>
    split at ha
    · rename_i hc
      simp only [carriesChroma, Bool.and_eq_true, decide_eq_true_eq] at hc
      simp only [List.mem_cons, List.not_mem_nil, or_false, rgbYAddr, rgbChromaAddr] at ha
      rcases ha with rfl | rfl | rfl
      · exact .inl ⟨u.row, hu.1, by omega, by omega⟩
      · exact .inr (.inl ⟨u.row / 2, by omega, by omega, by omega⟩)
      · exact .inr (.inr ⟨u.row / 2, by omega, by omega, by omega⟩)
    · simp only [List.mem_cons, List.not_mem_nil, or_false, rgbYAddr] at ha
      exact .inl ⟨u.row, hu.1, by omega, by omega⟩
  case rgb24 =>
    split at ha
    · rename_i hc
      simp only [carriesChroma, Bool.and_eq_true, decide_eq_true_eq] at hc
      simp only [List.mem_cons, List.not_mem_nil, or_false, rgbYAddr, rgbChromaAddr] at ha
      rcases ha with rfl | rfl | rfl
      · exact .inl ⟨u.row, hu.1, by omega, by omega⟩
      · exact .inr (.inl ⟨u.row / 2, by omega, by omega, by omega⟩)
      · exact .inr (.inr ⟨u.row / 2, by omega, by omega, by omega⟩)
    · simp only [List.mem_cons, List.not_mem_nil, or_false, rgbYAddr] at ha
      exact .inl ⟨u.row, hu.1, by omega, by omega⟩
  case yuy2 =>
    have hy := tight_place (len := j.w) (x := 2 * u.col + 1) hu.1 (by omega)
    split at ha
    · rename_i hc
      simp only [chromaRow, decide_eq_true_eq] at hc
      have hcr := tight_place (len := j.w / 2) (rows := j.h / 2) (i := u.row / 2) (x := u.col) (by omega) hu.2
      simp only [List.mem_cons, List.not_mem_nil, or_false, yuy2YAddr, yuy2ChromaAddr] at ha
      omega
    · simp only [List.mem_cons, List.not_mem_nil, or_false, yuy2YAddr] at ha
      omega

end Sys2Proof.Machine
end

