-- ==== Sys2Proof/Laws/Engine.lean ====
section
/-! SUPPORT. What an engine turn can do (spec 20_memory.md R65, R66), said once. -/

namespace Sys2Proof.Machine

@[simp] theorem performUnit_pending (j : Job) (u : WorkUnit) (s : State) : (performUnit j u s).pending = s.pending := by
  unfold performUnit; split <;> rfl

@[simp] theorem performUnit_status (j : Job) (u : WorkUnit) (s : State) : (performUnit j u s).status = s.status := by
  unfold performUnit; split <;> rfl

@[simp] theorem performUnit_job (j : Job) (u : WorkUnit) (s : State) : (performUnit j u s).job = s.job := by
  unfold performUnit; split <;> rfl

@[simp] theorem performUnit_params (j : Job) (u : WorkUnit) (s : State) : (performUnit j u s).params = s.params := by
  unfold performUnit; split <;> rfl

@[simp] theorem performUnit_plat (j : Job) (u : WorkUnit) (s : State) : (performUnit j u s).plat = s.plat := by
  unfold performUnit; split <;> rfl

@[simp] theorem performUnit_tainted (j : Job) (u : WorkUnit) (s : State) : (performUnit j u s).tainted = s.tainted := by
  unfold performUnit; split <;> rfl

@[simp] theorem performUnit_fault (j : Job) (u : WorkUnit) (s : State) : (performUnit j u s).fault = s.fault := by
  unfold performUnit; split <;> rfl

@[simp] theorem performUnit_hosts (j : Job) (u : WorkUnit) (s : State) : (performUnit j u s).hosts = s.hosts := by
  unfold performUnit; split <;> rfl

@[simp] theorem performUnit_sched (j : Job) (u : WorkUnit) (s : State) : (performUnit j u s).sched = s.sched := by
  unfold performUnit; split <;> rfl

/-- The memory a unit leaves: its writes stored, of its own values or of free ones at the same addresses. -/
theorem performUnit_mem (j : Job) (u : WorkUnit) (s : State) : ∃ ws : List (Nat × Byte),
    ws.map Prod.fst = (unitWrites s.mem j u).map Prod.fst ∧ (s.tainted = false → ws = unitWrites s.mem j u) ∧
    (performUnit j u s).mem = storeAll s.mem ws := by
  unfold performUnit
  split
  · rename_i h
    exact ⟨_, freeWrites_addrs _ _, by simp [h], rfl⟩
  · exact ⟨_, rfl, fun _ => rfl, rfl⟩

/-- The three ways an engine turn goes on: nothing is enabled, the job completes, or a unit is performed. -/
theorem engineStep_cases {k : Nat} {s t : State} (h : engineStep k s = .next t) :
    (engineReady s = false ∧ t = s) ∨
    (∃ j, s.job = some j ∧ s.status.busy = true ∧ s.pending = [] ∧ t = completeJob s) ∨
    (∃ j u, s.job = some j ∧ s.status.busy = true ∧ s.pending[k % s.pending.length]? = some u ∧
      unitAccessOk s j u = true ∧
      t = performUnit j u { s with pending := s.pending.eraseIdx (k % s.pending.length) }) := by
  unfold engineStep at h
  cases hj : s.job with
  | none =>
    rw [hj] at h
    exact .inl ⟨by simp [engineReady, hj], by injection h with h; exact h.symm⟩
  | some j =>
    rw [hj] at h
    cases hb : s.status.busy with
    | false =>
      simp only [hb] at h
      exact .inl ⟨by simp [engineReady, hb], by injection h with h; exact h.symm⟩
    | true =>
      simp only [hb, if_true] at h
      unfold jobStep at h
      cases hu : s.pending[k % s.pending.length]? with
      | none =>
        simp only [hu] at h
        refine .inr (.inl ⟨j, rfl, rfl, ?_, by injection h with h; exact h.symm⟩)
        by_contra hne
        have hlen : 0 < s.pending.length := List.length_pos_iff.mpr hne
        exact absurd (List.getElem?_eq_none_iff.mp hu) (Nat.not_le_of_lt (Nat.mod_lt _ hlen))
      | some u =>
        simp only [hu] at h
        split at h
        · rename_i hok
          exact .inr (.inr ⟨j, u, rfl, rfl, rfl, hok, by injection h with h; rw [← h, hj]⟩)
        · cases h

/-- The unit an engine turn takes is one of the pending ones. -/
theorem mem_of_taken {s : State} {i : Nat} {u : WorkUnit} (h : s.pending[i]? = some u) : u ∈ s.pending :=
  List.mem_of_getElem? h

/-- The pending units left when the one at `i` is taken are the others: `pending` is a set (10_state.md R34). -/
theorem mem_eraseIdx_of_nodup {l : List WorkUnit} (hn : l.Nodup) {i : Nat} {u : WorkUnit} (hu : l[i]? = some u)
    {x : WorkUnit} : x ∈ l.eraseIdx i ↔ x ∈ l ∧ x ≠ u := by
  induction l generalizing i with
  | nil => simp at hu
  | cons y rest ih =>
    rw [List.nodup_cons] at hn
    cases i with
    | zero =>
      have hy : y = u := by simpa using hu
      subst hy
      simp only [List.eraseIdx_cons_zero, List.mem_cons]
      constructor
      · intro hx
        exact ⟨.inr hx, fun h => hn.1 (h ▸ hx)⟩
      · rintro ⟨rfl | hx, hne⟩
        · exact absurd rfl hne
        · exact hx
    | succ i =>
      have hu' : rest[i]? = some u := by simpa using hu
      simp only [List.eraseIdx_cons_succ, List.mem_cons, ih hn.2 hu']
      constructor
      · rintro (rfl | ⟨hx, hne⟩)
        · exact ⟨.inl rfl, fun h => hn.1 (h ▸ List.mem_of_getElem? hu')⟩
        · exact ⟨.inr hx, hne⟩
      · rintro ⟨rfl | hx, hne⟩
        · exact .inl rfl
        · exact .inr ⟨hx, hne⟩

/-- A unit of a checked job accesses only what the engine may access (60_exceptions.md R172). -/
theorem unitAccessOk_of_checked {s : State} {j : Job} {u : WorkUnit} (hj : JobChecked s.plat j) (hu : u ∈ j.units) :
    unitAccessOk s j u = true := by
  have hr := rangeLegal_iff.mp hj.range
  refine Bool.and_eq_true_iff.mpr ⟨List.all_eq_true.mpr fun a ha => ?_, List.all_eq_true.mpr fun w hw => ?_⟩
  · exact hr a (.inl (unitReads_inSrc hj hu ha))
  · exact hr w.1 (.inr (unitWrites_inDst hj hu (List.mem_map_of_mem hw)))

end Sys2Proof.Machine
end

