-- ==== Sys2Proof/Laws/PerInstr.lean ====
section
/-! SUPPORT. One lemma per command of the opcode table: its encoding (spec 30_encoding.md R80 to R85). -/

namespace Sys2Proof.Laws.RoundTrip

/-- The command is well formed, its word is no reserved word, and the word decodes to it. -/
def Statement (i : Instr) : Prop :=
  i.wf = true ∧ CommandWord.wf (encode i) = true ∧ decode (encode i) = some i

theorem rgb32 : Statement .rgb32 := ⟨rfl, by decide, by decide⟩

theorem rgb32Legacy : Statement .rgb32Legacy := ⟨rfl, by decide, by decide⟩

theorem rgb24 : Statement .rgb24 := ⟨rfl, by decide, by decide⟩

theorem rgb24Legacy : Statement .rgb24Legacy := ⟨rfl, by decide, by decide⟩

theorem yuy2 : Statement .yuy2 := ⟨rfl, by decide, by decide⟩

end Sys2Proof.Laws.RoundTrip
end

