-- ==== Sys2Proof/Laws/Step.lean ====
section
/-! SUPPORT. What a host's turn and a step can do, said once: the inversion lemmas that the invariants cite. -/

namespace Sys2Proof.Machine

/-- What one host statement does, once the host has moved on to `h'`. -/
inductive HostEffect (s : State) : State → Prop where
  /-- A register read, a branch, a memory read, or a register write that is ignored. -/
  | quiet : HostEffect s s
  /-- A parameter register is written (10_state.md R29 to R31). -/
  | param (r : Reg) (v : Word) : HostEffect s (writeParam s r v)
  /-- A command word is written to CMD. -/
  | command (i : Instr) : HostEffect s (commandWrite i.op i.legacyBit s)
  /-- A reserved word is written to CMD. -/
  | reserved : HostEffect s (refuseReserved s)
  /-- A byte of shared memory is written. -/
  | store (a : Nat) (b : Byte) (h : inRunningFootprint s a = false) :
      HostEffect s { s with mem := Cells.write s.mem a b }
  /-- A byte of the running footprints is written (70_reset_and_hazards.md R200). -/
  | hazard (a : Nat) (h : inRunningFootprint s a = true) : HostEffect s (hazardWrite s a)

theorem cmdWrite_effect {w : Word} {s t : State} (h : cmdWrite w s = .next t) : HostEffect s t := by
  rcases cmdWrite_cases w s with ⟨i, -, hi⟩ | ⟨-, hr⟩
  · rw [hi, exec_eq] at h
    injection h with h
    exact h ▸ .command i
  · rw [hr] at h
    injection h with h
    exact h ▸ .reserved

theorem windowWrite_effect {off : Nat} {v : Word} {s t : State} (h : windowWrite off v s = .next t) : HostEffect s t := by
  unfold windowWrite at h
  split at h
  · injection h with h; exact h ▸ .quiet
  · exact cmdWrite_effect h
  · injection h with h; exact h ▸ .param _ v

theorem hostMemWr_effect {a : Nat} {b : Byte} {s t : State} (h : hostMemWr a b s = .next t) : HostEffect s t := by
  unfold hostMemWr at h
  split at h
  · cases h
  · split at h
    · cases h
    · split at h
      · rename_i hf; injection h with h; exact h ▸ .hazard a hf
      · rename_i hf; injection h with h; exact h ▸ .store a b (by simpa using hf)

/-- A host's turn: nothing, or the host `h` at `k` moves on to `h'`, its script unchanged and its temporaries still
canonical, and one effect happens. -/
theorem hostStep_cases {k : Nat} {s t : State} (h : hostStep k s = .next t) :
    t = s ∨ ∃ a a' : HostAgent, s.hosts[k]? = some a ∧ a'.prog = a.prog ∧
      (Cells.wf a.temps = true → Cells.wf a'.temps = true) ∧ HostEffect (withHost s k a') t := by
  unfold hostStep at h
  cases ha : s.hosts[k]? with
  | none => simp only [ha] at h; injection h with h; exact .inl h.symm
  | some a =>
    simp only [ha] at h
    cases hc : a.current with
    | none => simp only [hc] at h; injection h with h; exact .inl h.symm
    | some stmt =>
      simp only [hc] at h
      right
      cases stmt with
      | wr addr bytes v =>
        simp only [hostStmt] at h
        split at h
        · cases h
        · exact ⟨a, a.advance, rfl, rfl, id, windowWrite_effect h⟩
      | rd addr bytes n =>
        simp only [hostStmt] at h
        split at h
        · cases h
        · rename_i off _
          injection h with h
          refine ⟨a, a.advance.setTemp n (readOffset s off), rfl, rfl, fun hw => Cells.wf_write _ _ hw, ?_⟩
          exact h ▸ .quiet
      | bnz n mask target =>
        injection h with h
        refine ⟨a, a.branch n mask target, rfl, rfl, id, ?_⟩
        exact h ▸ .quiet
      | memWr addr b => exact ⟨a, a.advance, rfl, rfl, id, hostMemWr_effect h⟩
      | memRd addr n =>
        simp only [hostStmt, hostMemRd] at h
        split at h
        · cases h
        · split at h
          · cases h
          · injection h with h
            refine ⟨a, a.advance.setTemp n ((Cells.read s.mem addr).setWidth 32), rfl, rfl,
              fun hw => Cells.wf_write _ _ hw, ?_⟩
            exact h ▸ .quiet

/-- A step is one turn, from a state that differs from `s` in the schedule and the draws only. -/
theorem step_cases {s t : State} (h : step s = .next t) : ∃ (sched : List Turn) (draws : Nat) (s' : State),
    s' = { s with sched := sched, draws := draws } ∧
    (t = s' ∨ (∃ k, hostStep k s' = .next t) ∨ (∃ k, engineStep k s' = .next t) ∨ t = assertReset s' ∨
      ∃ k u, hostStep k s' = .next u ∧ t = assertReset u) := by
  have key : ∀ (o : Option Turn) (s' : State), runTurn o s' = .next t →
      (t = s' ∨ (∃ k, hostStep k s' = .next t) ∨ (∃ k, engineStep k s' = .next t) ∨ t = assertReset s' ∨
        ∃ k u, hostStep k s' = .next u ∧ t = assertReset u) := by
    intro o s' ho
    match o with
    | none => injection ho with ho; exact .inl ho.symm
    | some (.host k) => exact .inr (.inl ⟨k, ho⟩)
    | some (.engine k) => exact .inr (.inr (.inl ⟨k, ho⟩))
    | some .reset => injection ho with ho; exact .inr (.inr (.inr (.inl ho.symm)))
    | some (.hostAndReset k) =>
      simp only [runTurn, hostThenReset] at ho
      split at ho
      · rename_i u hu; injection ho with ho; exact .inr (.inr (.inr (.inr ⟨k, u, hu, ho.symm⟩)))
      · cases ho
      · cases ho
  unfold step at h
  refine ⟨(takeTurn s).2.sched, (takeTurn s).2.draws, (takeTurn s).2, ?_, key _ _ h⟩
  unfold takeTurn
  split
  · rfl
  · split <;> rfl

/-- A step whose schedule begins with a turn runs that turn. -/
theorem step_of_sched {s : State} {t : Turn} {rest : List Turn} (h : s.sched = t :: rest) :
    step s = runTurn (some t) { s with sched := rest } := by
  unfold step takeTurn
  rw [h]

/-- One step of a run of any machine. -/
theorem coreRun_next (M : Host.Core) {n : Nat} {s t : M.State} (h : M.step s = .next t) :
    M.run (n + 1) s = M.run n t := by
  simp only [Host.Core.run, h]

/-- One step of a run. -/
theorem run_next {n : Nat} {s t : State} (h : step s = .next t) :
    Host.Core.run Sys2Proof.core (n + 1) s = Host.Core.run Sys2Proof.core n t :=
  coreRun_next Sys2Proof.core h

/-- A register's place in the map leads back to it (10_state.md R22). -/
theorem atOffset_offset (r : Reg) : Reg.atOffset r.offset = some r := by cases r <;> rfl

/-- An aligned 32-bit access inside the window has its offset (20_memory.md R70). -/
theorem windowOffset_aligned (p : Platform) {off : Nat} (h : off < 64) (h4 : off % 4 = 0) :
    windowOffset p (regBase p + off) 4 = .ok off := by
  simp [windowOffset, inWindow, h, h4]

theorem offset_lt (r : Reg) : r.offset < 64 ∧ r.offset % 4 = 0 := by cases r <;> decide

/-- A word access at a register's bus address finds that register. -/
theorem windowOffset_reg (p : Platform) (r : Reg) : windowOffset p (regAddr p r) 4 = .ok r.offset :=
  windowOffset_aligned p (offset_lt r).1 (offset_lt r).2

/-- The byte is in the running footprints exactly when it is in SrcFP or DstFP of the running job (R200). -/
theorem inRunningFootprint_iff {s : State} {j : Job} {a : Nat} (hb : s.status.busy = true) (hj : s.job = some j) :
    inRunningFootprint s a = true ↔ j.InSrcFP a ∨ j.InDstFP a := by
  simp [inRunningFootprint, hb, hj, covers_src, covers_dst]

end Sys2Proof.Machine
end

