-- ==== Sys2Proof/Tests/Slice0.lean ====
section
/-! SUPPORT. Tests on fixed values, each with the place of the spec its expected result comes from, and one witness per
obligation that has hypotheses: a concrete state and operands that meet all of them together. -/

namespace Sys2Proof.Tests

open Sys2Proof.Machine

/-! ### The fixtures -/

/-- REG_BASE = 0x10000 and MEM_OK(a) = a < 0x10000, as in 95_test_vectors.md 2.5. -/
def plat : Platform := { window := 1024, regions := [{ base := 0, size := 0x10000 }] }

/-- The base parameters of 95_test_vectors.md 2.5. -/
def base : Params :=
  { srcAddr := 0x1000, yAddr := 0x2000, uAddr := 0x3000, vAddr := 0x3100, width := 2, height := 2, rgbStride := 8
    yStride := 2, uvStride := 1 }

/-- The start memory of program P1 (95_test_vectors.md): four pixels FF 54 4C 00. -/
def frame : Memory :=
  [(0x1000, 0xFF), (0x1001, 0x54), (0x1002, 0x4C), (0x1004, 0xFF), (0x1005, 0x54), (0x1006, 0x4C),
    (0x1008, 0xFF), (0x1009, 0x54), (0x100A, 0x4C), (0x100C, 0xFF), (0x100D, 0x54), (0x100E, 0x4C)]

/-- A host about to run a script of one or two statements. -/
def host (prog : List HostStmt) : HostAgent := { prog := prog, pos := 0, temps := [] }

/-- An idle block with the parameters `p`. -/
def idle (p : Params) : State := { State.reset with plat := plat, params := p, mem := frame }

/-- The job of the base parameters. -/
def job (op : Op) (l : Bool) : Job := candidateJob op l base

/-- STATUS while a job runs. -/
def busy : Status := { busy := true, done := false, err := false, ovr := false, errCode := 0 }

/-- The base job right after its start, with one host of the script `prog`. -/
def running (op : Op) (l : Bool) (prog : List HostStmt) : State :=
  { idle base with
      job := some (job op l), pending := (job op l).units, status := busy, hosts := [host prog] }

/-- Does the outcome give a next state with the property? -/
def next (o : Host.Outcome State Fault Refusal) (f : State → Bool) : Bool :=
  match o with
  | .next t => f t
  | .fault _ => false
  | .refused _ => false

/-- What a command word written to CMD leaves in STATUS and in the fault record. -/
def answers (w : Word) (p : Params) (st : Word) (f : Option FaultReason) : Bool :=
  next (cmdWrite w (idle p)) fun t => decide (t.status.toWord = st ∧ t.fault = f)

/-! ### Decoding, from 30_encoding.md R80 to R85, bit by bit: RES1, L, RES0, OP -/

theorem test_decode_rgb32 : decode 0b00000000000000000000000_0_0000_0001#32 = some .rgb32 := by decide

theorem test_decode_rgb32Legacy : decode 0b00000000000000000000000_1_0000_0001#32 = some .rgb32Legacy := by decide

theorem test_decode_rgb24 : decode 0b00000000000000000000000_0_0000_0010#32 = some .rgb24 := by decide

theorem test_decode_rgb24Legacy : decode 0b00000000000000000000000_1_0000_0010#32 = some .rgb24Legacy := by decide

theorem test_decode_yuy2 : decode 0b00000000000000000000000_0_0000_0011#32 = some .yuy2 := by decide

/-- The words 95_test_vectors.md 2.4 lists as reserved. -/
theorem test_decode_reserved :
    [0x00000000#32, 0x00000103#32, 0x00000004#32, 0x0000000F#32, 0x00000011#32, 0x00000201#32, 0x80000001#32].map
      decode = List.replicate 7 none := by decide

/-- A table word of fewer bits is the word with zeros above (log 19). -/
theorem test_decode_table_word :
    decodeTableWord 32 0x102 = some .rgb24Legacy ∧ decodeTableWord 8 0x03 = some .yuy2 ∧
      decodeTableWord 40 0x01 = none := by decide

/-! ### Well-formedness refuses what R80 to R82 forbid, one ill-formed word for each check -/

theorem test_wf_commands :
    [Instr.rgb32, .rgb32Legacy, .rgb24, .rgb24Legacy, .yuy2].all
      (fun i => i.wf && CommandWord.wf (encode i)) = true := by decide

theorem test_wf_reserved_low : CommandWord.wf 0x00000011#32 = false ∧ CommandWord.reservedZero 0x00000011#32 = false := by
  decide

theorem test_wf_reserved_high : CommandWord.wf 0x80000001#32 = false ∧ CommandWord.reservedZero 0x80000001#32 = false := by
  decide

theorem test_wf_op : CommandWord.wf 0x00000004#32 = false ∧ CommandWord.opLegal 0x00000004#32 = false ∧
    CommandWord.opLegal 0x00000100#32 = false := by decide

theorem test_wf_legacy : CommandWord.wf 0x00000103#32 = false ∧ CommandWord.legacyLegal 0x00000103#32 = false := by
  decide

/-! ### The clamp, the shift and the matrix: the tables of 95_test_vectors.md 2.1, 2.2 and 2.3 -/

theorem test_clip8 : [(-1000 : Int), -1, 0, 1, 127, 254, 255, 256, 300, 100000].map clip8 =
    [0, 0, 0, 1, 127, 254, 255, 255, 255, 255] := by decide

theorem test_asr : [(255 : Int), 256, 0, -1, -16, -255, -256, -257, -3846, -28432].map (fun x => asr x 8) =
    [0, 1, 0, -1, -1, -1, -1, -2, -16, -112] := by decide

/-- golden, red, green, yellow, cyan, mixed: Y, U, V, VL. -/
theorem test_csc :
    [((76 : Int), (84 : Int), (255 : Int)), (255, 0, 0), (0, 255, 0), (255, 255, 0), (0, 255, 255), (10, 200, 30)].map
      (fun c => (cscY c.1 c.2.1 c.2.2, cscU c.1 c.2.1 c.2.2, cscV c.1 c.2.1 c.2.2, cscVLegacy c.1 c.2.1)) =
    [(103, 204, 112, 125), (82, 90, 240, 240), (144, 54, 34, 16), (210, 16, 146, 128), (169, 166, 16, 16),
      (122, 82, 57, 45)] := by decide

/-! ### The commands: acceptance and refusal (95_test_vectors.md 2.5), and a step from reset -/

/-- E1, E2, E6, E13, E15: accepted, and one refusal of each kind. -/
theorem test_rgb32_answers :
    answers 0x1 base 0x001 none = true ∧ answers 0x1 { base with width := 3 } 0x204 (some .preDim) = true ∧
    answers 0x1 { base with rgbStride := 7 } 0x304 (some .preStride) = true ∧
    answers 0x1 { base with srcAddr := 0xFFF8 } 0x404 (some .preRange) = true ∧
    answers 0x1 { base with yAddr := 0x100C } 0x504 (some .preAlias) = true := by decide

/-- E7, E8: the tight source stride of RGB24 is 6. -/
theorem test_rgb24_answers :
    answers 0x2 { base with rgbStride := 6 } 0x001 none = true ∧
    answers 0x2 { base with rgbStride := 5 } 0x304 (some .preStride) = true := by decide

/-- E12: a negative stride is refused even for width 0; L changes no check. -/
theorem test_rgb32Legacy_answers :
    answers 0x101 base 0x001 none = true ∧
    answers 0x101 { base with width := 0, rgbStride := 0xFFFFFFFF } 0x304 (some .preStride) = true := by decide

/-- E14: no wrap-around at 2^32. -/
theorem test_rgb24Legacy_answers :
    answers 0x102 base 0x001 none = true ∧
    answers 0x102 { base with srcAddr := 0xFFFFFFFC } 0x404 (some .preRange) = true := by decide

/-- E18, E19: the strides are ignored; an odd height is refused. -/
theorem test_yuy2_answers :
    answers 0x3 { base with rgbStride := 0xFFFFFFFF, yStride := 0xFFFFFFFF, uvStride := 0xFFFFFFFF } 0x001 none = true ∧
    answers 0x3 { base with height := 3 } 0x204 (some .preDim) = true := by decide

/-- E4: a reserved word is refused before the dimensions are looked at, and records no fault. -/
theorem test_reserved_answers : answers 0x5 { base with width := 3 } 0x104 none = true := by decide

/-- S3: a command while busy is ignored and sets OVR. -/
theorem test_busy_answers :
    next (cmdWrite 0x2 (running .rgb32 false [])) (fun t => decide (t.status.toWord = 0x9 ∧ t.job = some (job .rgb32 false)))
      = true := by decide

/-- The first step after reset runs the command whose word is placed: a zero-size job (S2). -/
theorem test_first_step :
    [0x001, 0x101, 0x002, 0x102, 0x003].all (fun w =>
      next (step (State.reset.withFetchWord 32 w)) fun t => decide (t.status.toWord = 0x1 ∧ t.pending = [])) = true := by
  decide

/-! ### The units: program P1 and W8, and the YUY2 placement of 95_test_vectors.md 2.7 -/

/-- P1: pixel (0, 0) gives Y 67 at 2000, U CC at 3000, V 70 at 3100. -/
theorem test_rgb32_unit :
    next (engineStep 0 (running .rgb32 false [])) (fun t => decide (Cells.read t.mem 0x2000 = 0x67 ∧
      Cells.read t.mem 0x3000 = 0xCC ∧ Cells.read t.mem 0x3100 = 0x70 ∧ t.pending.length = 3)) = true := by decide

/-- P1 with L = 1 gives V 7D (R120); pixel (0, 1) stores no chroma. -/
theorem test_rgb32Legacy_unit :
    next (engineStep 0 (running .rgb32 true [])) (fun t => decide (Cells.read t.mem 0x3100 = 0x7D)) = true ∧
    next (engineStep 1 (running .rgb32 true [])) (fun t => decide (Cells.read t.mem 0x2001 = 0x67 ∧
      Cells.read t.mem 0x3000 = 0x00)) = true := by decide

/-- P6 (b): RGB24 on P1's bytes, pixel (0, 1) is `00 FF 54`, R 84, G 255, B 0, so Y = A6. -/
theorem test_rgb24_unit :
    next (engineStep 1 (running .rgb24 false [])) (fun t => decide (Cells.read t.mem 0x2001 = 0xA6)) = true := by decide

/-- P2: the golden pixel with L = 1 gives V 7D. -/
theorem test_rgb24Legacy_unit :
    next (engineStep 0 (running .rgb24 true [])) (fun t => decide (Cells.read t.mem 0x2000 = 0x67 ∧
      Cells.read t.mem 0x3100 = 0x7D)) = true := by decide

/-- R140 on P1's bytes: macropixel (0, 0) is FF 54 4C 00, so Y = FF 4C, U = 54, V = 00; row 1 stores luma only. -/
theorem test_yuy2_unit :
    next (engineStep 0 (running .yuy2 false [])) (fun t => decide (Cells.read t.mem 0x2000 = 0xFF ∧
      Cells.read t.mem 0x2001 = 0x4C ∧ Cells.read t.mem 0x3000 = 0x54 ∧ Cells.read t.mem 0x3100 = 0x00)) = true ∧
    (unitWrites frame (job .yuy2 false) { row := 1, col := 0 }).map Prod.fst = [0x2002, 0x2003] := by decide

/-! ### Witnesses -/

/-- The start memory is in its canonical form. -/
theorem frame_wf : Memory.wf frame = true := by decide

/-- The base job passes the checks, for each operation. -/
theorem checked (op : Op) (l : Bool) (h : op = .yuy2 → l = false) : JobChecked plat (job op l) := by
  refine ⟨by cases op <;> cases l <;> decide, by cases op <;> cases l <;> decide, ?_, by cases op <;> cases l <;> decide,
    by cases op <;> cases l <;> decide⟩
  cases op with
  | rgb32 => show _ ∧ _ ∧ _; cases l <;> decide
  | rgb24 => show _ ∧ _ ∧ _; cases l <;> decide
  | yuy2 => rw [h rfl]; show _ ∧ _ ∧ _ ∧ _; decide

/-- The base job, just started, meets the invariant. -/
theorem running_inv (op : Op) (l : Bool) (h : op = .yuy2 → l = false) (prog : List HostStmt) :
    (running op l prog).Inv :=
  { memWf := frame_wf
    tempsWf := fun x hx => by obtain rfl : x = host prog := List.mem_singleton.mp hx; rfl
    status := ⟨fun _ => rfl, fun _ => rfl, nofun, fun _ => rfl, nofun⟩
    busyIffJob := rfl
    idle := fun h' => by cases h'
    checked := fun j hj => by cases hj; exact checked op l h
    pendingNodup := units_nodup _
    pendingUnits := fun j hj u hu => by cases hj; exact hu }

/-- It is just started. -/
theorem running_started (op : Op) (l : Bool) (h : op = .yuy2 → l = false) (prog : List HostStmt) :
    JustStarted (job op l) (running op l prog) :=
  ⟨rfl, rfl, rfl, rfl, checked op l h, frame_wf⟩

/-- And nothing of it is done. -/
theorem running_progress (op : Op) (l : Bool) (prog : List HostStmt) :
    Progress frame (job op l) (running op l prog) :=
  ⟨fun _ _ => rfl, fun _ hu hn => absurd hu hn, fun _ _ _ _ => rfl⟩

/-- An idle block meets the invariant. -/
theorem idle_inv (p : Params) : (idle p).Inv :=
  { memWf := frame_wf
    tempsWf := fun x hx => by cases hx
    status := ⟨nofun, nofun, nofun, fun _ => rfl, nofun⟩
    busyIffJob := rfl
    idle := fun _ => ⟨rfl, rfl⟩
    checked := fun j hj => by cases hj
    pendingNodup := List.nodup_nil
    pendingUnits := fun j hj => by cases hj }

theorem witness_OpcodeMapWords_reserved : decode 0x00000103#32 = none := by decide

theorem witness_ClampSaturates : (-1 : Int) < 0 ∧ (255 : Int) < 256 ∧ (0 : Int) ≤ 0 ∧ (255 : Int) ≤ 255 := by decide

theorem witness_SumsFitSigned32 : ∃ (r g b : Byte) (x : Int), x = ySum (channel r) (channel g) (channel b) :=
  ⟨0xFF, 0xFF, 0xFF, _, rfl⟩

theorem witness_VSelection : ∃ g b : Int, g = b := ⟨0, 0, rfl⟩

/-- Boundary values: the tight strides, 2×2 pixels. -/
theorem witness_Rgb32Starts : (idle base).status.busy = false ∧ base.width.toInt = (2 : Nat) ∧
    base.height.toInt = (2 : Nat) ∧ base.rgbStride.toInt = (8 : Nat) ∧ base.yStride.toInt = (2 : Nat) ∧
    base.uvStride.toInt = (1 : Nat) ∧ 4 * 2 ≤ 8 ∧ 2 ≤ 2 ∧ 2 / 2 ≤ 1 ∧
    (∀ l, job .rgb32 l = ⟨.rgb32, l, base.srcAddr.toNat, base.yAddr.toNat, base.uAddr.toNat, base.vAddr.toNat, 2, 2,
        8, 2, 1⟩) ∧
    (job .rgb32 false).AllMemOk (idle base).plat ∧ ¬ (job .rgb32 false).SharesByte :=
  ⟨rfl, by decide, by decide, by decide, by decide, by decide, by decide, by decide, by decide, fun _ => rfl,
    rangeLegal_iff.mp (checked .rgb32 false nofun).range, planesDisjoint_iff.mp (checked .rgb32 false nofun).planes⟩

theorem witness_Rgb24Starts : (idle base).status.busy = false ∧ base.width.toInt = (2 : Nat) ∧
    base.height.toInt = (2 : Nat) ∧ base.rgbStride.toInt = (8 : Nat) ∧ base.yStride.toInt = (2 : Nat) ∧
    base.uvStride.toInt = (1 : Nat) ∧ 3 * 2 ≤ 8 ∧ 2 ≤ 2 ∧ 2 / 2 ≤ 1 ∧
    (∀ l, job .rgb24 l = ⟨.rgb24, l, base.srcAddr.toNat, base.yAddr.toNat, base.uAddr.toNat, base.vAddr.toNat, 2, 2,
        8, 2, 1⟩) ∧
    (job .rgb24 false).AllMemOk (idle base).plat ∧ ¬ (job .rgb24 false).SharesByte :=
  ⟨rfl, by decide, by decide, by decide, by decide, by decide, by decide, by decide, by decide, fun _ => rfl,
    rangeLegal_iff.mp (checked .rgb24 false nofun).range, planesDisjoint_iff.mp (checked .rgb24 false nofun).planes⟩

theorem witness_Yuy2Starts : (idle base).status.busy = false ∧ base.width.toInt = (2 : Nat) ∧
    base.height.toInt = (2 : Nat) ∧
    job .yuy2 false = ⟨.yuy2, false, base.srcAddr.toNat, base.yAddr.toNat, base.uAddr.toNat, base.vAddr.toNat, 2, 2,
        2 * 2, 2, 2 / 2⟩ ∧
    (job .yuy2 false).AllMemOk (idle base).plat ∧ ¬ (job .yuy2 false).SharesByte :=
  ⟨rfl, by decide, by decide, rfl,
    rangeLegal_iff.mp (checked .yuy2 false (fun _ => rfl)).range, planesDisjoint_iff.mp (checked .yuy2 false (fun _ => rfl)).planes⟩

theorem witness_UnitsOfJob : ((job .rgb32 false).op = .rgb32 ∨ (job .rgb32 false).op = .rgb24) ∧
    ((job .rgb24 false).op = .rgb32 ∨ (job .rgb24 false).op = .rgb24) ∧ (job .yuy2 false).op = .yuy2 := by decide

/-- Each disjunct: width -2 and 3, height -2 and 3. -/
theorem witness_DimensionRefusal :
    (idle base).status.busy = false ∧ ({ base with width := 0xFFFFFFFE } : Params).width.toInt < 0 ∧
      ({ base with height := 0xFFFFFFFE } : Params).height.toInt < 0 ∧
      ({ base with width := 3 } : Params).width.toInt % 2 ≠ 0 ∧
      ({ base with height := 3 } : Params).height.toInt % 2 ≠ 0 := by decide

/-- One below each tight stride, for both pixel sizes, and a YUY2 command that answers a next state. -/
theorem witness_StrideRefusal :
    (idle base).status.busy = false ∧ 0 ≤ base.width.toInt ∧ 0 ≤ base.height.toInt ∧ base.width.toInt % 2 = 0 ∧
      base.height.toInt % 2 = 0 ∧
      ({ base with rgbStride := 7 } : Params).rgbStride.toInt < 4 * base.width.toInt ∧
      ({ base with rgbStride := 5 } : Params).rgbStride.toInt < 3 * base.width.toInt ∧
      ({ base with yStride := 1 } : Params).yStride.toInt < base.width.toInt ∧
      ({ base with uvStride := 0 } : Params).uvStride.toInt < base.width.toInt / 2 ∧
      ∃ t, exec .yuy2 (idle base) = .next t :=
  ⟨by decide, by decide, by decide, by decide, by decide, by decide, by decide, by decide, by decide, _, rfl⟩

/-- The first byte without MEM_OK is the last source byte (E13). -/
theorem witness_RangeRefusal : ∃ (p : Params) (j : Job), (idle p).status.busy = false ∧ dimsLegal p = true ∧
    j = candidateJob Instr.rgb32.op Instr.rgb32.legacyBit p ∧ stridesLegal Instr.rgb32.op p = true ∧
    ∃ a, (j.InSrcFP a ∨ j.InDstFP a) ∧ memOk (idle p).plat a = false :=
  ⟨{ base with srcAddr := 0xFFF8 }, _, rfl, by decide, rfl, by decide, 0x10000, .inl (covers_src.mp (by decide)), by decide⟩

/-- U and V at one address (E16). -/
theorem witness_AliasRefusal : ∃ (p : Params) (j : Job), (idle p).status.busy = false ∧ dimsLegal p = true ∧
    j = candidateJob Instr.rgb32.op Instr.rgb32.legacyBit p ∧ stridesLegal Instr.rgb32.op p = true ∧
    j.AllMemOk (idle p).plat ∧ j.SharesByte :=
  ⟨{ base with vAddr := 0x3000 }, _, rfl, by decide, rfl, by decide, rangeLegal_iff.mp (by decide), 0x3000,
    .inr (.inr (.inr (.inr (.inr ⟨covers_chroma.mp (by decide), covers_chroma.mp (by decide)⟩))))⟩

/-- A word for each clause, at the boundary of its range. -/
theorem witness_ReservedWordRefusal : (idle base).status.busy = false ∧ (0x00000011#32).toNat / 16 % 16 ≠ 0 ∧
    (0x00000201#32).toNat / 512 ≠ 0 ∧ (0x80000001#32).toNat / 512 ≠ 0 ∧ (0x00000100#32).toNat % 16 = 0 ∧
    4 ≤ (0x00000004#32).toNat % 16 ∧ ((0x00000103#32).toNat % 16 = 3 ∧ (0x00000103#32).toNat / 256 % 2 = 1) := by decide

theorem witness_CommandWhileBusyIgnored : (running .rgb32 false []).status.busy = true ∧
    ∃ t, engineStep 0 (running .rgb32 false []) = .next t := ⟨rfl, _, rfl⟩

theorem witness_CommandFrame : ∃ t, exec .rgb32 (idle { base with width := 3 }) = .next t ∧ t.status.busy = false :=
  ⟨_, rfl, by decide⟩

/-- Width 0, and height 0. -/
theorem witness_ZeroSizeJob :
    ((idle { base with width := 0 }).status.busy = false ∧ dimsLegal { base with width := 0 } = true ∧
      ({ base with width := 0 } : Params).width = 0 ∧ stridesLegal .rgb32 { base with width := 0 } = true) ∧
    (dimsLegal { base with height := 0 } = true ∧ ({ base with height := 0 } : Params).height = 0 ∧
      stridesLegal .rgb32 { base with height := 0 } = true ∧ stridesLegal .rgb24 { base with height := 0 } = true ∧
      stridesLegal .yuy2 { base with height := 0 } = true) := by decide

/-- An accepted command, and a refused one. -/
theorem witness_CommandEndsInDoneOrError : (idle base).status.busy = false ∧ (∃ t, exec .rgb24 (idle base) = .next t) ∧
    ∃ t, exec .rgb24 (idle { base with width := 3 }) = .next t := ⟨rfl, ⟨_, rfl⟩, ⟨_, rfl⟩⟩

/-- A unit that carries chroma (index 0), and one that does not (index 1). -/
theorem witness_Rgb32UnitEffect : (running .rgb32 true []).Inv ∧ (running .rgb32 true []).job = some (job .rgb32 true) ∧
    (job .rgb32 true).op = .rgb32 ∧ (running .rgb32 true []).tainted = false ∧
    (running .rgb32 true []).pending[0 % (running .rgb32 true []).pending.length]? = some { row := 0, col := 0 } ∧
    (running .rgb32 true []).pending[1 % (running .rgb32 true []).pending.length]? = some { row := 0, col := 1 } :=
  ⟨running_inv .rgb32 true nofun [], rfl, rfl, rfl, by decide, by decide⟩

theorem witness_Rgb24UnitEffect : (running .rgb24 true []).Inv ∧ (running .rgb24 true []).job = some (job .rgb24 true) ∧
    (job .rgb24 true).op = .rgb24 ∧ (running .rgb24 true []).tainted = false ∧
    (running .rgb24 true []).pending[0 % (running .rgb24 true []).pending.length]? = some { row := 0, col := 0 } ∧
    (running .rgb24 true []).pending[3 % (running .rgb24 true []).pending.length]? = some { row := 1, col := 1 } :=
  ⟨running_inv .rgb24 true nofun [], rfl, rfl, rfl, by decide, by decide⟩

theorem witness_Yuy2UnitEffect : (running .yuy2 false []).Inv ∧ (running .yuy2 false []).job = some (job .yuy2 false) ∧
    (job .yuy2 false).op = .yuy2 ∧ (running .yuy2 false []).tainted = false ∧
    (running .yuy2 false []).pending[0 % (running .yuy2 false []).pending.length]? = some { row := 0, col := 0 } ∧
    (running .yuy2 false []).pending[1 % (running .yuy2 false []).pending.length]? = some { row := 1, col := 0 } :=
  ⟨running_inv .yuy2 false (fun _ => rfl) [], rfl, rfl, rfl, by decide, by decide⟩

/-- The base job, hit by HZ_WRITE. -/
def hit : State := { running .rgb32 false [] with tainted := true }

/-- Untainted and tainted. -/
theorem witness_UnitFrame : Memory.wf (running .rgb32 false []).mem = true ∧
    (running .rgb32 false []).job = some (job .rgb32 false) ∧ (running .rgb32 false []).status.busy = true ∧
    (running .rgb32 false []).pending[2 % (running .rgb32 false []).pending.length]? = some { row := 1, col := 0 } ∧
    (∃ t, engineStep 2 (running .rgb32 false []) = .next t) ∧
    hit.tainted = true ∧ Memory.wf hit.mem = true ∧ hit.job = some (job .rgb32 false) ∧ hit.status.busy = true ∧
    hit.pending[2 % hit.pending.length]? = some { row := 1, col := 0 } ∧ ∃ t, engineStep 2 hit = .next t :=
  ⟨by decide, rfl, rfl, by decide, ⟨_, rfl⟩, rfl, by decide, rfl, rfl, by decide, _, rfl⟩

theorem witness_EachDestinationByteOnce : JobChecked plat (job .rgb32 true) := checked .rgb32 true nofun

theorem witness_UnitReadsSourceOnly : JobChecked plat (job .yuy2 false) ∧
    ({ row := 1, col := 0 } : WorkUnit) ∈ (job .yuy2 false).units ∧ 0x1004 ∈ unitReads (job .yuy2 false) { row := 1, col := 0 } ∧
    ∀ a ∈ unitReads (job .yuy2 false) { row := 1, col := 0 }, Cells.read frame a = Cells.read (Cells.write frame 0x1003 7) a :=
  ⟨checked .yuy2 false (fun _ => rfl), by decide, by decide, by decide⟩

/-- Two frames that differ in the unused byte of pixel (0, 0). -/
theorem witness_UnusedByteIrrelevant : JobChecked plat (job .rgb32 false) ∧ (job .rgb32 false).op = .rgb32 ∧
    ({ row := 0, col := 0 } : WorkUnit) ∈ (job .rgb32 false).units ∧
    (∀ a, (∀ i x, i < (job .rgb32 false).h → x < (job .rgb32 false).w →
        a ≠ (job .rgb32 false).src + i * (job .rgb32 false).rs + 4 * x + 3) →
      Cells.read ([(0x1003, 0x55)] : Memory) a = Cells.read ([] : Memory) a) := by
  refine ⟨checked .rgb32 false nofun, rfl, by decide, fun a ha => ?_⟩
  have h := ha 0 0 (by decide) (by decide)
  have h' : 0x1003 ≠ a := fun e => h (e ▸ by decide)
  simp [Cells.read, h']

theorem witness_RowLocality : JobChecked plat (job .yuy2 false) ∧
    ({ row := 1, col := 0 } : WorkUnit) ∈ (job .yuy2 false).units ∧ (job .yuy2 false).op = .yuy2 ∧
    (job .rgb32 false).op = .rgb32 ∧ (job .rgb24 false).op = .rgb24 ∧ ∃ tight, tight = 2 * (job .yuy2 false).w :=
  ⟨checked .yuy2 false (fun _ => rfl), by decide, rfl, rfl, rfl, _, rfl⟩

/-- Pixel (0, 0), whose channel bytes lie at the same addresses in both packings. -/
theorem witness_Rgb24AgreesWithRgb32 : (job .rgb32 true).op = .rgb32 ∧ (job .rgb24 true).op = .rgb24 ∧
    (job .rgb24 true).legacy = (job .rgb32 true).legacy ∧ (job .rgb24 true).y = (job .rgb32 true).y ∧
    (job .rgb24 true).u = (job .rgb32 true).u ∧ (job .rgb24 true).v = (job .rgb32 true).v ∧
    (job .rgb24 true).ys = (job .rgb32 true).ys ∧ (job .rgb24 true).uvs = (job .rgb32 true).uvs ∧
    (∀ c, c < 3 → Cells.read frame ((job .rgb32 true).src + 0 * (job .rgb32 true).rs + 4 * 0 + c) =
      Cells.read frame ((job .rgb24 true).src + 0 * (job .rgb24 true).rs + 3 * 0 + c)) := by decide

theorem witness_NoErrorDuringJob : (running .rgb24 false []).Inv := running_inv .rgb24 false nofun []

theorem witness_JobCompletes :
    JustStarted (job .rgb32 false) { running .rgb32 false [] with sched := [3, 1, 0, 0, 9].map .engine } ∧
    [3, 1, 0, 0, 9].length = (running .rgb32 false []).pending.length + 1 :=
  ⟨⟨rfl, rfl, rfl, rfl, checked .rgb32 false nofun, by decide⟩, by decide⟩

/-- Both pixel sizes. -/
theorem witness_RgbFrameConverted :
    JustStarted (job .rgb32 true) { running .rgb32 true [] with sched := [3, 1, 0, 0, 9].map .engine } ∧
    (job .rgb32 true).op = .rgb32 ∧
    JustStarted (job .rgb24 false) { running .rgb24 false [] with sched := [3, 1, 0, 0, 9].map .engine } ∧
    (job .rgb24 false).op = .rgb24 ∧ [3, 1, 0, 0, 9].length = (running .rgb32 true []).pending.length + 1 ∧
    [3, 1, 0, 0, 9].length = (running .rgb24 false []).pending.length + 1 :=
  ⟨⟨rfl, rfl, rfl, rfl, checked .rgb32 true nofun, by decide⟩, rfl,
    ⟨rfl, rfl, rfl, rfl, checked .rgb24 false nofun, by decide⟩, rfl, by decide, by decide⟩

theorem witness_Yuy2FrameUnpacked :
    JustStarted (job .yuy2 false) { running .yuy2 false [] with sched := [1, 0, 0].map .engine } ∧
    (job .yuy2 false).op = .yuy2 ∧ [1, 0, 0].length = (running .yuy2 false []).pending.length + 1 :=
  ⟨⟨rfl, rfl, rfl, rfl, checked .yuy2 false (fun _ => rfl), by decide⟩, rfl, by decide⟩

/-- Two orders of the units of one job, each of which runs. -/
theorem witness_UnitOrderIrrelevant : JustStarted (job .yuy2 false) (running .yuy2 false []) ∧
    (∃ t, Host.Core.run core 3 { running .yuy2 false [] with sched := [0, 0, 0].map .engine } = .next t) ∧
    ∃ t, Host.Core.run core 3 { running .yuy2 false [] with sched := [1, 0, 0].map .engine } = .next t :=
  ⟨running_started .yuy2 false (fun _ => rfl) [], ⟨_, rfl⟩, ⟨_, rfl⟩⟩

theorem witness_ProgressStarts : (idle base).Inv ∧ (idle base).status.busy = false ∧
    ∃ t, exec .rgb32 (idle base) = .next t ∧ t.job = some (job .rgb32 false) :=
  ⟨idle_inv base, rfl, _, rfl, by decide⟩

theorem witness_ProgressKept : (running .rgb32 false []).Inv ∧ Progress frame (job .rgb32 false) (running .rgb32 false []) ∧
    ∃ t, step { running .rgb32 false [] with sched := [.engine 0] } = .next t ∧ t.job = some (job .rgb32 false) ∧
      t.tainted = false :=
  ⟨running_inv .rgb32 false nofun [], running_progress .rgb32 false [], _, rfl, rfl, rfl⟩

/-- A YUY2 job without units. -/
def emptyJob : Job :=
  { op := .yuy2, legacy := false, src := 0, y := 0, u := 0, v := 0, w := 0, h := 0, rs := 0, ys := 0, uvs := 0 }

/-- It runs and only its completion step is left. -/
def completing : State := { idle base with status := busy, job := some emptyJob }

theorem completing_inv : completing.Inv :=
  { memWf := frame_wf
    tempsWf := fun x hx => by cases hx
    status := ⟨fun _ => rfl, fun _ => rfl, nofun, fun _ => rfl, nofun⟩
    busyIffJob := rfl
    idle := nofun
    checked := fun j hj => by cases hj; exact ⟨rfl, rfl, ⟨rfl, rfl, rfl, rfl⟩, by decide, by decide⟩
    pendingNodup := List.nodup_nil
    pendingUnits := fun j _ u hu => by cases hu }

/-- The YUY2 base job with some units run: memory after the writes of the units `done`, the units `left` pending. -/
def partway (done left : List WorkUnit) (prog : List HostStmt) : State :=
  { running .yuy2 false prog with
      mem := storeAll frame (done.flatMap (unitWrites frame (job .yuy2 false))), pending := left }

/-- After the unit of row 0, and after both. -/
def halfway (prog : List HostStmt) : State := partway [{ row := 0, col := 0 }] [{ row := 1, col := 0 }] prog

def allRun : State := partway [{ row := 0, col := 0 }, { row := 1, col := 0 }] [] []

/-- What is left to decide of the progress of such a state: the eight source bytes, the units run and those waiting. -/
theorem partway_progress {done left : List WorkUnit} {prog : List HostStmt}
    (hs : ∀ i < 8, Cells.read (partway done left prog).mem (0x1000 + i) = Cells.read frame (0x1000 + i))
    (hp : ∀ u ∈ (job .yuy2 false).units, u ∉ left →
      ∀ w ∈ unitWrites frame (job .yuy2 false) u, Cells.read (partway done left prog).mem w.1 = w.2)
    (hw : ∀ u ∈ left, ∀ w ∈ unitWrites frame (job .yuy2 false) u,
      Cells.read (partway done left prog).mem w.1 = Cells.read frame w.1) :
    Progress frame (job .yuy2 false) (partway done left prog) := by
  refine ⟨fun a ha => ?_, hp, hw⟩
  have ⟨h1, h2⟩ : 0x1000 ≤ a ∧ a < 0x1000 + 8 := covers_single.mp ha
  obtain ⟨i, rfl⟩ := Nat.exists_eq_add_of_le h1
  exact hs i (by omega)

/-- It meets the invariant if its pending units are units of the job. -/
theorem partway_inv {done left : List WorkUnit} (prog : List HostStmt) (hn : left.Nodup)
    (hu : ∀ u ∈ left, u ∈ (job .yuy2 false).units) : (partway done left prog).Inv :=
  { memWf := storeAll_wf frame_wf
    tempsWf := (running_inv .yuy2 false (fun _ => rfl) prog).tempsWf
    status := ⟨fun _ => rfl, fun _ => rfl, nofun, fun _ => rfl, nofun⟩
    busyIffJob := rfl
    idle := nofun
    checked := fun j hj => by cases hj; exact checked .yuy2 false fun _ => rfl
    pendingNodup := hn
    pendingUnits := fun j hj => by cases hj; exact hu }

/-- A job whose units have all run, and one that has none. -/
theorem witness_CompletionShowsEveryWrite :
    (allRun.Inv ∧ allRun.job = some (job .yuy2 false) ∧ Progress frame (job .yuy2 false) allRun ∧ allRun.pending = [] ∧
      ({ row := 0, col := 0 } : WorkUnit) ∈ (job .yuy2 false).units) ∧
    completing.Inv ∧ completing.job = some emptyJob ∧ Progress frame emptyJob completing ∧ completing.pending = [] :=
  ⟨⟨partway_inv [] List.nodup_nil nofun, rfl, partway_progress (by decide) (by decide) (by decide), rfl, by decide⟩,
    completing_inv, rfl, ⟨fun _ _ => rfl, fun _ hu => absurd hu (by simp [Job.units, emptyJob]), nofun⟩, rfl⟩

/-- Cut off before any unit, and after the last. -/
theorem witness_ResetAbortsJob :
    JustStarted (job .rgb32 false) { running .rgb32 false [] with sched := ([] : List Nat).map .engine ++ [.reset] } ∧
    JustStarted (job .rgb32 false) { running .rgb32 false [] with sched := [3, 1, 0, 0].map .engine ++ [.reset] } ∧
    [3, 1, 0, 0].length ≤ (running .rgb32 false []).pending.length :=
  ⟨⟨rfl, rfl, rfl, rfl, checked .rgb32 false nofun, by decide⟩, ⟨rfl, rfl, rfl, rfl, checked .rgb32 false nofun, by decide⟩,
    by decide⟩

/-- The first and the last parameter register, while a job runs. -/
theorem witness_ParameterReadsBack :
    (Reg.srcAddr ≠ .cmd ∧ Reg.srcAddr ≠ .status ∧ Reg.uvStride ≠ .cmd ∧ Reg.uvStride ≠ .status) ∧
    (running .rgb32 false [.wr (regAddr plat .srcAddr) 4 0xFFFFFFFF]).hosts[0]? =
      some (host [.wr (regAddr plat .srcAddr) 4 0xFFFFFFFF]) ∧
    (host [.wr (regAddr plat .srcAddr) 4 0xFFFFFFFF]).current = some (.wr (regAddr plat .srcAddr) 4 0xFFFFFFFF) ∧
    (host [.wr (regAddr plat .uvStride) 4 1]).current = some (.wr (regAddr plat .uvStride) 4 1) := by decide

/-- STATUS, the first and the last reserved offset. -/
theorem witness_IgnoredRegisterWrites :
    (host [.wr (regBase plat + 0x04) 4 0xFFFFFFFF]).current = some (.wr (regBase plat + 0x04) 4 0xFFFFFFFF) ∧
    (host [.wr (regBase plat + 0x2C) 4 1]).current = some (.wr (regBase plat + 0x2C) 4 1) ∧
    (host [.wr (regBase plat + 0x3C) 4 1]).current = some (.wr (regBase plat + 0x3C) 4 1) ∧
    (running .rgb32 false [.wr (regBase plat + 0x04) 4 0xFFFFFFFF]).hosts[0]? =
      some (host [.wr (regBase plat + 0x04) 4 0xFFFFFFFF]) := by decide

theorem witness_RegisterReadHasNoSideEffect :
    (running .rgb32 false [.rd (regAddr plat .status) 4 0]).hosts[0]? = some (host [.rd (regAddr plat .status) 4 0]) ∧
    (host [.rd (regAddr plat .status) 4 0]).current = some (.rd (regAddr plat .status) 4 0) ∧
    (host [.rd (regAddr plat .cmd) 4 0]).current = some (.rd (regAddr plat .cmd) 4 0) ∧
    Cells.wf (host [.rd (regAddr plat .status) 4 0]).temps = true := by decide

/-- Each clause: a byte write at the last byte of the window, a misaligned word read, byte accesses to memory at the
first and the last byte of the window, and register accesses just outside it. -/
theorem witness_SubWordAccessRefused :
    (running .rgb32 false [.wr (regBase plat + 63) 1 0]).hosts[0]? = some (host [.wr (regBase plat + 63) 1 0]) ∧
    (host [.wr (regBase plat + 63) 1 0]).current = some (.wr (regBase plat + 63) 1 0) ∧ (1 : Nat) ≠ 4 ∧
    (host [.rd (regBase plat + 2) 4 0]).current = some (.rd (regBase plat + 2) 4 0) ∧ (2 : Nat) % 4 ≠ 0 ∧
    (host [.memWr 0x10000 1]).current = some (.memWr 0x10000 1) ∧ inWindow plat 0x10000 = true ∧
    (host [.memRd 0x1003F 0]).current = some (.memRd 0x1003F 0) ∧ inWindow plat 0x1003F = true ∧
    (host [.wr 0x10040 4 1]).current = some (.wr 0x10040 4 1) ∧ inWindow plat 0x10040 = false ∧
    (host [.rd 0xFFFC 4 0]).current = some (.rd 0xFFFC 4 0) ∧ inWindow plat 0xFFFC = false := by decide

theorem witness_StepRunsDecodedCommand :
    ({ running .rgb32 false [.wr (regAddr plat .cmd) 4 0x102] with sched := [.host 0] } : State).hosts[0]? =
      some (host [.wr (regAddr plat .cmd) 4 0x102]) ∧
    (host [.wr (regAddr plat .cmd) 4 0x102]).current = some (.wr (regAddr plat .cmd) 4 0x102) ∧
    decode 0x102#32 = some .rgb24Legacy := by decide

/-- Busy and idle. -/
theorem witness_WaitIdlePolls :
    (running .rgb32 false (waitIdle plat 0 7)).hosts[0]? = some (host (waitIdle plat 0 7)) ∧
    (running .rgb32 false (waitIdle plat 0 7)).status.busy = true ∧
    ({ idle base with hosts := [host (waitIdle plat 0 7)] } : State).hosts[0]? = some (host (waitIdle plat 0 7)) ∧
    (idle base).status.busy = false ∧ (host (waitIdle plat 0 7)).pos = 0 ∧ Cells.wf (host (waitIdle plat 0 7)).temps = true ∧
    (host (waitIdle plat 0 7)).prog[0]? = some (.rd (regAddr plat .status) 4 7) ∧
    (host (waitIdle plat 0 7)).prog[0 + 1]? = some (.bnz 7 0x1#32 0) := by decide

theorem witness_ParameterWriteWhileBusyHarmless : ∃ t, engineStep 0 (running .rgb32 false []) = .next t := ⟨_, rfl⟩

/-- The first source byte and the V byte. -/
theorem witness_HazardWriteRecorded :
    (running .rgb32 false [.memWr 0x1000 1]).Inv ∧ (running .rgb32 false [.memWr 0x1000 1]).job = some (job .rgb32 false) ∧
    (running .rgb32 false [.memWr 0x1000 1]).hosts[0]? = some (host [.memWr 0x1000 1]) ∧
    (host [.memWr 0x1000 1]).current = some (.memWr 0x1000 1) ∧ (job .rgb32 false).InSrcFP 0x1000 ∧
    inWindow plat 0x1000 = false ∧ (job .rgb32 false).InDstFP 0x3100 ∧ inWindow plat 0x3100 = false :=
  ⟨running_inv .rgb32 false nofun _, rfl, rfl, rfl, covers_src.mp (by decide), by decide, covers_dst.mp (by decide), by decide⟩

/-- A write just past the V plane while a job runs, and a read of the last address there is. -/
theorem witness_HostMemoryAccess :
    (running .rgb32 false [.memWr 0x3101 1]).Inv ∧
    (running .rgb32 false [.memWr 0x3101 1]).hosts[0]? = some (host [.memWr 0x3101 1]) ∧
    (host [.memWr 0x3101 1]).current = some (.memWr 0x3101 1) ∧ inWindow plat 0x3101 = false ∧ 0x3101 < 2 ^ 32 ∧
    (∀ j, (running .rgb32 false [.memWr 0x3101 1]).job = some j → ¬ j.InSrcFP 0x3101 ∧ ¬ j.InDstFP 0x3101) ∧
    (running .rgb32 false [.memRd 0xFFFFFFFF 0]).hosts[0]? = some (host [.memRd 0xFFFFFFFF 0]) ∧
    (host [.memRd 0xFFFFFFFF 0]).current = some (.memRd 0xFFFFFFFF 0) ∧ inWindow plat 0xFFFFFFFF = false ∧
    0xFFFFFFFF < 2 ^ 32 ∧ Cells.wf (host [.memRd 0xFFFFFFFF 0]).temps = true := by
  refine ⟨running_inv .rgb32 false nofun _, rfl, rfl, by decide, by decide, fun j hj => ?_, rfl, rfl, by decide, by decide, rfl⟩
  cases hj
  exact ⟨fun h => absurd (covers_src.mpr h) (by decide), fun h => absurd (covers_dst.mpr h) (by decide)⟩

/-- A destination byte whose unit has run (0x2000), one whose unit is pending (0x2002), and a source byte. -/
theorem witness_ReadWhileBusyOldOrFinal :
    (halfway [.memRd 0x2000 0]).Inv ∧ (halfway [.memRd 0x2000 0]).job = some (job .yuy2 false) ∧
    (halfway [.memRd 0x2000 0]).tainted = false ∧ Progress frame (job .yuy2 false) (halfway [.memRd 0x2000 0]) ∧
    (halfway [.memRd 0x2000 0]).hosts[0]? = some (host [.memRd 0x2000 0]) ∧
    (host [.memRd 0x2000 0]).current = some (.memRd 0x2000 0) ∧ inWindow plat 0x2000 = false ∧
    (job .yuy2 false).InDstFP 0x2000 ∧
    (∃ w ∈ unitWrites frame (job .yuy2 false) { row := 0, col := 0 }, w.1 = 0x2000) ∧
    ({ row := 0, col := 0 } : WorkUnit) ∉ (halfway []).pending ∧
    (host [.memRd 0x2002 0]).current = some (.memRd 0x2002 0) ∧ inWindow plat 0x2002 = false ∧
    (job .yuy2 false).InDstFP 0x2002 ∧
    (∃ w ∈ unitWrites frame (job .yuy2 false) { row := 1, col := 0 }, w.1 = 0x2002) ∧
    ({ row := 1, col := 0 } : WorkUnit) ∈ (halfway []).pending ∧
    (host [.memRd 0x1000 0]).current = some (.memRd 0x1000 0) ∧ inWindow plat 0x1000 = false ∧
    (job .yuy2 false).InSrcFP 0x1000 :=
  ⟨partway_inv _ (by decide) (by decide), rfl, rfl, partway_progress (by decide) (by decide) (by decide), rfl, rfl,
    by decide, covers_dst.mp (by decide), by decide, by decide, rfl, by decide, covers_dst.mp (by decide), by decide,
    by decide, rfl, by decide, covers_src.mp (by decide)⟩

/-- The first address that does not exist. -/
theorem witness_HostAddressOutsideMemoryFaults :
    (running .rgb32 false [.memWr (2 ^ 32) 1]).hosts[0]? = some (host [.memWr (2 ^ 32) 1]) ∧ 2 ^ 32 ≤ 2 ^ 32 ∧
    inWindow plat (2 ^ 32) = false ∧ (host [.memWr (2 ^ 32) 1]).current = some (.memWr (2 ^ 32) 1) ∧
    (host [.memRd (2 ^ 32) 0]).current = some (.memRd (2 ^ 32) 0) := by decide

theorem witness_ResetValues : ({ running .rgb32 false [] with sched := [.reset] } : State).sched = .reset :: [] := rfl

theorem witness_ResetAfterSimultaneousAccess : ∃ u,
    step { running .rgb32 false [.wr (regAddr plat .width) 4 8] with sched := .host 0 :: [] } = .next u := ⟨_, rfl⟩

theorem witness_IdleKeepsState : (idle base).status.busy = false ∧ (idle base).sched = [] ∧
    ∀ h ∈ (idle base).hosts, h.prog.length ≤ h.pos := by decide

/-- With units pending, and without. -/
theorem witness_EngineRunsWhenScheduleEnds : (running .rgb32 false []).Inv ∧ (running .rgb32 false []).status.busy = true ∧
    (running .rgb32 false []).sched = [] ∧ (running .rgb32 false []).pending ≠ [] ∧
    completing.Inv ∧ completing.status.busy = true ∧ completing.sched = [] ∧ completing.pending = [] :=
  ⟨running_inv .rgb32 false nofun [], rfl, rfl, by decide, completing_inv, rfl, rfl, rfl⟩

theorem witness_FaultNeverCleared : ∃ s t : State, s.fault = some .preDim ∧ s.fault ≠ none ∧ step s = .next t :=
  ⟨{ idle base with fault := some .preDim, sched := [.reset] }, _, rfl, by decide, rfl⟩

theorem witness_FaultRecordKeepsFirst : ∃ s t : State, s.fault = some .hzWrite ∧ step s = .next t :=
  ⟨{ idle base with fault := some .hzWrite, sched := [.reset] }, _, rfl, rfl⟩

theorem witness_PlatformIsConstant : (∃ t, step (idle base) = .next t) ∧ memOk plat 0xFFFF = true := ⟨⟨_, rfl⟩, by decide⟩

theorem witness_InvariantKept : (running .rgb32 false []).Inv ∧
    ∃ t, step { running .rgb32 false [] with sched := [.engine 3] } = .next t :=
  ⟨running_inv .rgb32 false nofun [], _, rfl⟩

end Sys2Proof.Tests
end

section
/-! PROOFS. The platform parameters of spec 00_scope.md R9 are data that nothing writes: the frame of `plat` through
commands, hosts, the engine and a step, and what the parameters are by construction. -/

namespace Sys2Proof.Machine

@[simp] theorem commandWrite_plat (op : Op) (l : Bool) (s : State) : (commandWrite op l s).plat = s.plat := by
  rcases commandWrite_cases op l s with
    ⟨-, h⟩ | ⟨-, -, h⟩ | ⟨-, -, -, h⟩ | ⟨-, -, -, -, h⟩ | ⟨-, -, -, -, -, h⟩ | ⟨-, -, -, -, -, h⟩ <;> simp [h]

@[simp] theorem refuseReserved_plat (s : State) : (refuseReserved s).plat = s.plat := by
  unfold refuseReserved; split <;> rfl

theorem HostEffect.plat_eq {s t : State} (h : HostEffect s t) : t.plat = s.plat := by
  cases h with
  | quiet => rfl
  | param r v => exact writeParam_plat s r v
  | command i => exact commandWrite_plat i.op i.legacyBit s
  | reserved => exact refuseReserved_plat s
  | store a b _ => rfl
  | hazard a _ => exact hazardWrite_plat s a

theorem hostStep_plat {k : Nat} {s t : State} (h : hostStep k s = .next t) : t.plat = s.plat := by
  rcases hostStep_cases h with rfl | ⟨_, a', -, -, -, he⟩
  · rfl
  · exact he.plat_eq.trans (withHost_plat s k a')

theorem engineStep_plat {k : Nat} {s t : State} (h : engineStep k s = .next t) : t.plat = s.plat := by
  rcases engineStep_cases h with ⟨-, rfl⟩ | ⟨_, -, -, -, rfl⟩ | ⟨j, u, -, -, -, -, rfl⟩
  · rfl
  · exact completeJob_plat s
  · exact performUnit_plat j u _

/-- No step writes the platform parameters, the reset input included (R9, R20). -/
theorem step_plat {s t : State} (h : step s = .next t) : t.plat = s.plat := by
  obtain ⟨_, _, s', hs', hturn⟩ := step_cases h
  have hp : s'.plat = s.plat := by rw [hs']
  rw [← hp]
  rcases hturn with rfl | ⟨_, hh⟩ | ⟨_, he⟩ | rfl | ⟨_, u, hh, rfl⟩
  · rfl
  · exact hostStep_plat hh
  · exact engineStep_plat he
  · exact assertReset_plat _
  · exact (assertReset_plat u).trans (hostStep_plat hh)

/-- REG_BASE is aligned to the 64 bytes of the register window (R9, R22). -/
theorem dvd_regBase (p : Platform) : 64 ∣ regBase p := Nat.dvd_mul_right 64 p.window

/-- The engine is given no address outside the 32-bit address space (R9). -/
theorem lt_of_memOk {p : Platform} {a : Nat} (h : memOk p a = true) : a < 2 ^ 32 := by
  unfold memOk at h
  exact of_decide_eq_true (Bool.and_eq_true_iff.mp h).1

end Sys2Proof.Machine

open Sys2Proof.Machine

/-- Settles O58: `plat` is framed by every turn a step can take, and the two bounds are built into `regBase` and
`memOk`. -/
theorem platformIsConstant : Obligations.PlatformIsConstant := by
  unfold Obligations.PlatformIsConstant
  exact ⟨fun _ _ => step_plat, fun p => ⟨dvd_regBase p, fun _ => lt_of_memOk⟩⟩
end

section
/-! PROOFS. What holds after every step holds because each turn keeps it: the induction of `step_cases` packaged once
(spec 20_memory.md R67), and the three outcomes of a command word with its checks summed up (60_exceptions.md R160). -/

namespace Sys2Proof.Machine

/-- A host's turn keeps what the host's moving on and every effect of a statement keep. -/
theorem hostStep_keeps {P : State → Prop}
    (hmove : ∀ (s : State) (k : Nat) (a a' : HostAgent), P s → a ∈ s.hosts →
      (Cells.wf a.temps = true → Cells.wf a'.temps = true) → P (withHost s k a'))
    (heffect : ∀ s t : State, P s → HostEffect s t → P t)
    {k : Nat} {s t : State} (hs : P s) (h : hostStep k s = .next t) : P t := by
  rcases hostStep_cases h with rfl | ⟨a, a', ha, -, hwf, he⟩
  · exact hs
  · exact heffect _ _ (hmove s k a a' hs (List.mem_of_getElem? ha) hwf) he

/-- A step keeps what a host's turn, an engine turn and the reset input keep, if the schedule and the draws have no part
in it. -/
theorem step_keeps {P : State → Prop}
    (hsched : ∀ (s : State) (sched : List Turn) (draws : Nat), P s → P { s with sched := sched, draws := draws })
    (hhost : ∀ (k : Nat) (s t : State), P s → hostStep k s = .next t → P t)
    (hengine : ∀ (k : Nat) (s t : State), P s → engineStep k s = .next t → P t)
    (hreset : ∀ s : State, P s → P (assertReset s))
    {s t : State} (hs : P s) (h : step s = .next t) : P t := by
  obtain ⟨sched, draws, s', rfl, hturn⟩ := step_cases h
  have hs' := hsched s sched draws hs
  rcases hturn with rfl | ⟨k, hh⟩ | ⟨k, he⟩ | rfl | ⟨k, u, hh, rfl⟩
  · exact hs'
  · exact hhost k _ t hs' hh
  · exact hengine k _ t hs' he
  · exact hreset _ hs'
  · exact hreset u (hhost k _ u hs' hh)

/-- A command word is ignored, refused, or starts its candidate job, which has then passed the checks of R160. -/
theorem commandWrite_outcome (op : Op) (l : Bool) (s : State) :
    (s.status.busy = true ∧ commandWrite op l s = ignoreWhileBusy s) ∨
    (s.status.busy = false ∧ ∃ r c, commandWrite op l s = refuseCommand (acceptCommand s) r c) ∨
    (s.status.busy = false ∧ ((op = .yuy2 → l = false) → JobChecked s.plat (candidateJob op l s.params)) ∧
      commandWrite op l s = startJob (candidateJob op l s.params) (acceptCommand s)) := by
  rcases commandWrite_cases op l s with ⟨hb, h⟩ | ⟨hb, -, h⟩ | ⟨hb, -, -, h⟩ | ⟨hb, -, -, -, h⟩ | ⟨hb, -, -, -, -, h⟩ |
    ⟨hb, hd, hs, hr, ha, h⟩
  · exact .inl ⟨hb, h⟩
  · exact .inr (.inl ⟨hb, _, _, h⟩)
  · exact .inr (.inl ⟨hb, _, _, h⟩)
  · exact .inr (.inl ⟨hb, _, _, h⟩)
  · exact .inr (.inl ⟨hb, _, _, h⟩)
  · exact .inr (.inr ⟨hb, fun hl => candidateJob_checked hd hs hl hr ha, h⟩)

end Sys2Proof.Machine

namespace Sys2Proof

/-- UNPACK.YUY2 has no legacy form (30_encoding.md R82). -/
theorem Instr.legacyBit_of_yuy2 {i : Instr} (h : i.op = .yuy2) : i.legacyBit = false :=
  match i, h with
  | .yuy2, _ => rfl

end Sys2Proof
end

section
/-! PROOFS. The invariant of the machine: it holds right after reset, and every shared update of the state keeps it, so
that every turn and every step do (spec 10_state.md R24 to R27, R33, R34, R38). -/

namespace Sys2Proof.Machine

/-! ### STATUS -/

theorem StatusLegal.zero : StatusLegal Status.zero :=
  ⟨nofun, nofun, nofun, fun _ => rfl, nofun⟩

theorem StatusLegal.withOvr {st : Status} (h : StatusLegal st) : StatusLegal st.withOvr := { h with }

/-- Each error code is one of 1 to 5 (R27; 60_exceptions.md R163). -/
theorem ErrCode.toBits_range (c : ErrCode) : 1 ≤ c.toBits.toNat ∧ c.toBits.toNat ≤ 5 := by
  cases c <;> decide

/-- STATUS after a command that was refused. -/
theorem StatusLegal.refused (c : ErrCode) : StatusLegal (Status.zero.withError c) :=
  ⟨nofun, nofun, nofun, nofun, fun _ => c.toBits_range⟩

/-- STATUS after a command that started a job. -/
theorem StatusLegal.started : StatusLegal Status.zero.withBusy :=
  ⟨fun _ => rfl, fun _ => rfl, nofun, fun _ => rfl, nofun⟩

/-- A job that completes leaves ERR as it was while it ran, 0 (R26). -/
theorem StatusLegal.completed {st : Status} (h : StatusLegal st) (hb : st.busy = true) : StatusLegal st.completed :=
  { h with busyNotDone := nofun, busyNotErr := nofun, doneNotErr := fun _ => h.busyNotErr hb }

/-! ### Updates of the state -/

theorem reset_inv : State.reset.Inv where
  memWf := reset_memory_wf
  tempsWf := nofun
  status := StatusLegal.zero
  busyIffJob := rfl
  idle := fun _ => ⟨rfl, rfl⟩
  checked := nofun
  pendingNodup := List.nodup_nil
  pendingUnits := nofun

namespace State.Inv

variable {s : State}

theorem job_eq_none (hi : s.Inv) (hb : s.status.busy = false) : s.job = none := by
  rw [← Option.not_isSome_iff_eq_none, ← hi.busyIffJob, hb]
  decide

theorem busy_of_job (hi : s.Inv) {j : Job} (hj : s.job = some j) : s.status.busy = true := by
  rw [hi.busyIffJob, hj]
  rfl

/-- The parameter registers, the fault record, the schedule and the draws have no part in the invariant. -/
theorem frame (hi : s.Inv) (params : Params) (fault : Option FaultReason) (sched : List Turn) (draws : Nat) :
    State.Inv { s with params := params, fault := fault, sched := sched, draws := draws } := { hi with }

theorem withMem (hi : s.Inv) {m : Memory} (hm : Memory.wf m = true) : State.Inv { s with mem := m } :=
  { hi with memWf := hm }

/-- A host that moves on with canonical temporaries. -/
theorem withHost (hi : s.Inv) (k : Nat) {a : HostAgent} (ha : Cells.wf a.temps = true) : (withHost s k a).Inv :=
  { hi with
    tempsWf := fun x hx => by
      rcases List.mem_or_eq_of_mem_set hx with hx | rfl
      · exact hi.tempsWf x hx
      · exact ha }

theorem ignoreWhileBusy (hi : s.Inv) : (ignoreWhileBusy s).Inv := { hi with status := hi.status.withOvr }

/-- An idle block that accepts a command and then raises an error stays idle. -/
theorem refused (hi : s.Inv) (hb : s.status.busy = false) (c : ErrCode) : (raiseError (acceptCommand s) c).Inv :=
  { hi with
    status := StatusLegal.refused c
    busyIffJob := by simp [hi.job_eq_none hb] }

/-- A checked job that starts has all its units pending (R34). -/
theorem started (hi : s.Inv) {j : Job} (hj : JobChecked s.plat j) : (startJob j (acceptCommand s)).Inv :=
  { hi with
    status := StatusLegal.started
    busyIffJob := rfl
    idle := nofun
    checked := by rintro _ ⟨⟩; exact hj
    pendingNodup := units_nodup j
    pendingUnits := by rintro _ ⟨⟩ u hu; exact hu }

theorem commandWrite (hi : s.Inv) (i : Instr) : (commandWrite i.op i.legacyBit s).Inv := by
  rcases commandWrite_outcome i.op i.legacyBit s with ⟨-, h⟩ | ⟨hb, r, c, h⟩ | ⟨-, hj, h⟩ <;> rw [h]
  · exact hi.ignoreWhileBusy
  · exact (hi.refused hb c).frame s.params (keepFirstFault s.fault r) s.sched s.draws
  · exact hi.started (hj Instr.legacyBit_of_yuy2)

theorem refuseReserved (hi : s.Inv) : (refuseReserved s).Inv := by
  unfold Machine.refuseReserved
  split
  · exact hi.ignoreWhileBusy
  · rename_i hb
    exact hi.refused (by simpa using hb) .errCmd

/-- A hazard happens only while a job runs, which is then tainted. -/
theorem hazardWrite (hi : s.Inv) {a : Nat} (ha : inRunningFootprint s a = true) : (hazardWrite s a).Inv :=
  { hi with
    memWf := Cells.wf_write a _ hi.memWf
    idle := fun (hj : s.job = none) => by simp [inRunningFootprint, hj] at ha }

theorem assertReset (hi : s.Inv) : (assertReset s).Inv :=
  { reset_inv with
    memWf := hi.memWf
    tempsWf := hi.tempsWf
    checked := nofun
    pendingUnits := nofun }

theorem completeJob (hi : s.Inv) (hb : s.status.busy = true) : (completeJob s).Inv :=
  { hi with
    status := hi.status.completed hb
    busyIffJob := rfl
    idle := fun _ => ⟨rfl, rfl⟩
    checked := nofun
    pendingNodup := List.nodup_nil
    pendingUnits := nofun }

/-- Taking a unit off the pending set of a running job. -/
theorem takeUnit (hi : s.Inv) {j : Job} (hj : s.job = some j) (i : Nat) :
    State.Inv { s with pending := s.pending.eraseIdx i } :=
  { hi with
    idle := fun (hn : s.job = none) => by simp [hj] at hn
    pendingNodup := hi.pendingNodup.sublist (List.eraseIdx_sublist _ _)
    pendingUnits := fun j' hj' u hu => hi.pendingUnits j' hj' u (List.mem_of_mem_eraseIdx hu) }

/-- A unit changes nothing but memory and the draws. -/
theorem performUnit (hi : s.Inv) (j : Job) (u : WorkUnit) : (performUnit j u s).Inv := by
  unfold Machine.performUnit
  split
  · exact (hi.withMem (storeAll_wf hi.memWf)).frame s.params s.fault s.sched _
  · exact hi.withMem (storeAll_wf hi.memWf)

/-! ### Turns and steps -/

theorem of_effect {t : State} (hi : s.Inv) (h : HostEffect s t) : t.Inv := by
  cases h with
  | quiet => exact hi
  | param r v => exact hi.frame (s.params.write r v) s.fault s.sched s.draws
  | command i => exact hi.commandWrite i
  | reserved => exact hi.refuseReserved
  | store a b _ => exact hi.withMem (Cells.wf_write a b hi.memWf)
  | hazard a ha => exact hi.hazardWrite ha

theorem of_hostStep {k : Nat} {t : State} (hi : s.Inv) (h : hostStep k s = .next t) : t.Inv :=
  hostStep_keeps (P := State.Inv) (fun _ k a _ hi ha hwf => hi.withHost k (hwf (hi.tempsWf a ha)))
    (fun _ _ hi => hi.of_effect) hi h

theorem of_engineStep {k : Nat} {t : State} (hi : s.Inv) (h : engineStep k s = .next t) : t.Inv := by
  rcases engineStep_cases h with ⟨-, rfl⟩ | ⟨_, -, hb, -, rfl⟩ | ⟨j, u, hj, -, -, -, rfl⟩
  · exact hi
  · exact hi.completeJob hb
  · exact (hi.takeUnit hj _).performUnit j u

theorem of_step {t : State} (hi : s.Inv) (h : step s = .next t) : t.Inv :=
  step_keeps (P := State.Inv) (fun s sched draws hi => hi.frame s.params s.fault sched draws)
    (fun _ _ _ hi => hi.of_hostStep) (fun _ _ _ hi => hi.of_engineStep) (fun _ hi => hi.assertReset) hi h

end State.Inv

end Sys2Proof.Machine

open Sys2Proof.Machine

/-- Settles O60: every turn a step can take keeps the invariant. -/
theorem invariantKept : Obligations.InvariantKept := by
  unfold Obligations.InvariantKept
  exact fun _ _ hi => hi.of_step

/-- Settles O59: a machine right after reset has no job, and everything else in it is empty or 0. -/
theorem invariantAtReset : Obligations.InvariantAtReset := reset_inv
end

section
/-! PROOFS. The life of a job: its units, its start and its completion (spec 10_state.md R25, R33, R34; 20_memory.md
R66), and the frame of a command word (60_exceptions.md R160). -/

namespace Sys2Proof.Machine

theorem Job.unitCols_of_rgb {j : Job} (h : j.op = .rgb32 ∨ j.op = .rgb24) : j.unitCols = j.w := by
  unfold Job.unitCols
  rcases h with h | h <;> rw [h]

theorem Job.unitCols_of_yuy2 {j : Job} (h : j.op = .yuy2) : j.unitCols = j.w / 2 := by
  unfold Job.unitCols
  rw [h]

/-- A command leaves a job behind in an idle block only by starting it. -/
theorem commandWrite_starts {i : Instr} {s : State} {j : Job} (hb : s.status.busy = false) (hn : s.job = none)
    (hj : (commandWrite i.op i.legacyBit s).job = some j) :
    JobChecked s.plat j ∧ commandWrite i.op i.legacyBit s = startJob j (acceptCommand s) := by
  rcases commandWrite_outcome i.op i.legacyBit s with ⟨hb', -⟩ | ⟨-, r, c, h⟩ | ⟨-, hc, h⟩
  · simp [hb] at hb'
  · simp [h, hn] at hj
  · obtain rfl : candidateJob i.op i.legacyBit s.params = j := by simpa [h] using hj
    exact ⟨hc Instr.legacyBit_of_yuy2, h⟩

/-- Nothing of a job that was just started is done. -/
theorem Progress.started (j : Job) (s : State) : Progress s.mem j (startJob j s) where
  source _ _ := rfl
  performed _ hu hnot := absurd hu hnot
  waiting _ _ _ _ := rfl

theorem JustStarted.started {s : State} {j : Job} (hj : JobChecked s.plat j) (hm : Memory.wf s.mem = true) :
    JustStarted j (startJob j s) :=
  ⟨rfl, rfl, rfl, rfl, hj, hm⟩

/-- With nothing pending the engine's step is the completion step (R66). -/
theorem engineStep_completes {s : State} {j : Job} (hj : s.job = some j) (hb : s.status.busy = true)
    (hp : s.pending = []) (k : Nat) : engineStep k s = .next (completeJob s) := by
  simp [engineStep, jobStep, hj, hb, hp]

end Sys2Proof.Machine

open Sys2Proof.Machine

/-- Settles O12: membership and the absence of repeats are those of `units`, with the columns of each operation. -/
theorem unitsOfJob : Obligations.UnitsOfJob := by
  unfold Obligations.UnitsOfJob
  refine fun j u => ⟨units_nodup j, fun h => ?_, fun h => ?_⟩
  · rw [mem_units, Job.unitCols_of_rgb h]
  · rw [mem_units, Job.unitCols_of_yuy2 h]

/-- Settles O36: an idle block has no job, so the command started the one it leaves. -/
theorem progressStarts : Obligations.ProgressStarts := by
  unfold Obligations.ProgressStarts
  intro i s t j hi hb hexec hj
  obtain rfl : commandWrite i.op i.legacyBit s = t := by simpa [exec_eq] using hexec
  obtain ⟨hc, hstart⟩ := commandWrite_starts hb (hi.job_eq_none hb) hj
  rw [hstart]
  exact ⟨Progress.started j (acceptCommand s), JustStarted.started hc hi.memWf⟩

/-- Settles O38: the engine's step is the completion step, which leaves memory alone, and with nothing pending every
unit of the job has been performed. -/
theorem completionShowsEveryWrite : Obligations.CompletionShowsEveryWrite := by
  unfold Obligations.CompletionShowsEveryWrite
  intro m0 j s k hi hj hprog hp
  refine ⟨completeJob s, engineStep_completes hj (hi.busy_of_job hj) hp k, rfl, rfl, rfl, rfl, fun u hu => ?_⟩
  exact hprog.performed u hu (by simp [hp])

/-- Settles O19: ignored, refused or accepted, a command word changes STATUS and the fault record, and the job only where
it sets BUSY. -/
theorem commandFrame : Obligations.CommandFrame := by
  unfold Obligations.CommandFrame
  intro i s
  refine ⟨_, exec_eq i s, ?_⟩
  rcases commandWrite_outcome i.op i.legacyBit s with ⟨-, h⟩ | ⟨-, r, c, h⟩ | ⟨-, -, h⟩ <;> simp [h]
end

section
/-! PROOFS. The fault record is never cleared and keeps its first reason (spec 10_state.md R37, log 5). -/

namespace Sys2Proof.Machine

@[simp] theorem keepFirstFault_some (r r' : FaultReason) : keepFirstFault (some r) r' = some r := rfl

theorem commandWrite_keeps_fault {s : State} {r : FaultReason} (hf : s.fault = some r) (op : Op) (l : Bool) :
    (commandWrite op l s).fault = some r := by
  rcases commandWrite_outcome op l s with ⟨-, h⟩ | ⟨-, _, _, h⟩ | ⟨-, -, h⟩ <;> simp [h, hf]

theorem refuseReserved_fault (s : State) : (refuseReserved s).fault = s.fault := by
  unfold refuseReserved
  split
  · exact ignoreWhileBusy_fault s
  · rfl

theorem HostEffect.keeps_fault {s t : State} {r : FaultReason} (hf : s.fault = some r) (h : HostEffect s t) :
    t.fault = some r := by
  cases h with
  | quiet => exact hf
  | param _ _ => exact hf
  | command i => exact commandWrite_keeps_fault hf i.op i.legacyBit
  | reserved => exact (refuseReserved_fault s).trans hf
  | store _ _ _ => exact hf
  | hazard a _ => simp [hf]

theorem engineStep_fault {k : Nat} {s t : State} (h : engineStep k s = .next t) : t.fault = s.fault := by
  rcases engineStep_cases h with ⟨-, rfl⟩ | ⟨_, -, -, -, rfl⟩ | ⟨j, u, -, -, -, -, rfl⟩
  · rfl
  · exact completeJob_fault s
  · exact performUnit_fault j u _

/-- A reason once recorded outlasts every step, the reset input among them. -/
theorem step_keeps_fault {s t : State} {r : FaultReason} (hf : s.fault = some r) (h : step s = .next t) :
    t.fault = some r :=
  step_keeps (P := fun s => s.fault = some r) (fun _ _ _ hf => hf)
    (fun _ _ _ hf hh => hostStep_keeps (P := fun s => s.fault = some r) (fun _ _ _ _ hf _ _ => hf)
      (fun _ _ hf => HostEffect.keeps_fault hf) hf hh)
    (fun _ _ _ hf he => (engineStep_fault he).trans hf) (fun _ hf => hf) hf h

end Sys2Proof.Machine

open Sys2Proof.Machine

/-- Settles O57: every turn keeps a recorded reason. -/
theorem faultRecordKeepsFirst : Obligations.FaultRecordKeepsFirst := by
  unfold Obligations.FaultRecordKeepsFirst
  exact fun _ _ _ => step_keeps_fault

/-- Settles O56: a record that keeps its reason is not empty. -/
theorem faultNeverCleared : Obligations.FaultNeverCleared := by
  unfold Obligations.FaultNeverCleared
  refine ⟨rfl, fun s t hf h => ?_⟩
  obtain ⟨r, hr⟩ := Option.ne_none_iff_exists'.mp hf
  simp [step_keeps_fault hr h]
end

section
/-! PROOFS. The register window: the layout of STATUS, a host's word write at an offset, what it reads back, and the
values after the reset input (spec 10_state.md R22 to R24, R29 to R32, R39; 20_memory.md R70, R71). -/

namespace Sys2Proof.Machine

/-- Bit fields side by side, in plain arithmetic. -/
theorem toNat_append_eq_add {m n : Nat} (x : BitVec m) (y : BitVec n) :
    (x ++ y).toNat = 2 ^ n * x.toNat + y.toNat := by
  rw [BitVec.toNat_append, ← Nat.shiftLeft_add_eq_or_of_lt y.isLt, Nat.shiftLeft_eq, Nat.mul_comm]

theorem hostStep_of_current {k : Nat} {s : State} {h : HostAgent} {stmt : HostStmt} (hk : s.hosts[k]? = some h)
    (hc : h.current = some stmt) : hostStep k s = hostStmt k h stmt s := by
  simp [hostStep, hk, hc]

/-- A host's aligned word write inside the window: the host moves on, then the write happens at its offset. -/
theorem hostStep_wr {k off : Nat} {s : State} {h : HostAgent} {v : Word} (hk : s.hosts[k]? = some h)
    (hc : h.current = some (.wr (regBase s.plat + off) 4 v)) (hlt : off < 64) (h4 : off % 4 = 0) :
    hostStep k s = windowWrite off v (withHost s k h.advance) := by
  rw [hostStep_of_current hk hc]
  simp only [hostStmt, windowOffset_aligned s.plat hlt h4]

/-- Every named register but CMD is written as a parameter is; STATUS then stores nothing (R24). -/
theorem windowWrite_offset {r : Reg} (hr : r ≠ .cmd) (v : Word) (s : State) :
    windowWrite r.offset v s = .next (writeParam s r v) := by
  unfold windowWrite
  rw [atOffset_offset]
  cases r <;> trivial

theorem atOffset_reserved {off : Nat} (h : 0x2C ≤ off) : Reg.atOffset off = none := by
  unfold Reg.atOffset
  split
  case h_12 => rfl
  all_goals omega

theorem windowWrite_reserved {off : Nat} (h : 0x2C ≤ off) (v : Word) (s : State) : windowWrite off v s = .next s := by
  simp only [windowWrite, atOffset_reserved h]

theorem readReg_writeParam_same {r : Reg} (hc : r ≠ .cmd) (hs : r ≠ .status) (s : State) (v : Word) :
    readReg (writeParam s r v) r = v := by
  cases r <;> trivial

theorem readReg_writeParam_other {r r' : Reg} (h : r' ≠ r) (s : State) (v : Word) :
    readReg (writeParam s r v) r' = readReg s r' := by
  cases r <;> cases r' <;> trivial

@[simp] theorem readReg_withHost (s : State) (k : Nat) (h : HostAgent) (r : Reg) :
    readReg (withHost s k h) r = readReg s r := by
  cases r <;> rfl

theorem Status.zero_toWord : Status.zero.toWord = 0 := by decide

@[simp] theorem readReg_assertReset (s : State) (r : Reg) : readReg (assertReset s) r = 0 := by
  cases r
  case status => exact Status.zero_toWord
  all_goals rfl

end Sys2Proof.Machine

open Sys2Proof.Machine

/-- Settles O40: the fields side by side, each weighed by the bits below it. -/
theorem statusWordLayout : Obligations.StatusWordLayout := by
  unfold Obligations.StatusWordLayout
  intro st
  simp only [Status.toWord, toNat_append_eq_add, BitVec.toNat_ofBool, BitVec.toNat_ofNat]
  omega

/-- Settles O41: the host moves on and the register is written. -/
theorem parameterReadsBack : Obligations.ParameterReadsBack := by
  unfold Obligations.ParameterReadsBack
  intro s k h r v hcmd hstatus hk hc
  refine ⟨writeParam (withHost s k h.advance) r v, ?_, readReg_writeParam_same hcmd hstatus _ v, fun r' hr' => ?_,
    rfl, rfl, rfl, rfl, rfl⟩
  · rw [hostStep_wr hk hc (offset_lt r).1 (offset_lt r).2, windowWrite_offset hcmd]
  · rw [readReg_writeParam_other hr', readReg_withHost]

/-- Settles O42: STATUS stores nothing, and no register stands at a reserved offset. -/
theorem ignoredRegisterWrites : Obligations.IgnoredRegisterWrites := by
  unfold Obligations.IgnoredRegisterWrites
  constructor
  · rintro s k h off v hk (rfl | ⟨hlo, hhi, h4⟩) hc
    · rw [hostStep_wr hk hc (by decide) (by decide)]
      exact windowWrite_offset (r := .status) nofun v _
    · rw [hostStep_wr hk hc (by omega) h4, windowWrite_reserved hlo]
      rfl
  · rintro s off (rfl | ⟨hlo, -⟩)
    · rfl
    · simp only [readOffset, atOffset_reserved hlo]

/-- Settles O52: the turn is the reset input, which leaves memory and the fault record alone. -/
theorem resetValues : Obligations.ResetValues := by
  unfold Obligations.ResetValues
  intro s rest h
  exact ⟨assertReset { s with sched := rest }, step_of_sched h, readReg_assertReset _, rfl, rfl, rfl, rfl⟩
end

section
/-! PROOFS. Where the units of a checked job store, said alike for the three operations: every row of pixels has its row
of luma samples, every second one its rows of chroma samples, and the rows of a plane do not overlap (spec 20_memory.md
R59 to R63; 40_rgb_to_yuv.md R110, R111; 41_yuy2_to_yuv.md R140 to R142). -/

namespace Sys2Proof.Machine

/-! ### The planes as rows of samples -/

theorem inRows_iff {base stride rows len a : Nat} :
    InRows base stride rows len a ↔ ∃ i x, i < rows ∧ x < len ∧ a = base + (i * stride + x) := by
  constructor
  · rintro ⟨i, hi, hlo, hhi⟩
    exact ⟨i, a - (base + i * stride), hi, by omega, by omega⟩
  · rintro ⟨i, x, hi, hx, rfl⟩
    exact ⟨i, hi, by omega, by omega⟩

/-- Tightly packed rows fill one block. -/
theorem inRows_tight {base len rows a : Nat} :
    InRows base len rows len a ↔ base ≤ a ∧ a < base + len * rows := by
  rw [inRows_iff]
  constructor
  · rintro ⟨i, x, hi, hx, rfl⟩
    have := tight_place hi hx
    omega
  · rintro ⟨hlo, hhi⟩
    have hlen : 0 < len := Nat.pos_of_mul_pos_right (b := rows) (by omega)
    refine ⟨(a - base) / len, (a - base) % len, Nat.div_lt_of_lt_mul (by omega), Nat.mod_lt _ hlen, ?_⟩
    rw [Nat.div_add_mod']
    omega

namespace JobChecked

variable {p : Platform} {j : Job}

theorem luma_stride (hj : JobChecked p j) : j.w ≤ j.ys := by
  have hs := hj.strides
  unfold Job.stridesOk at hs
  cases hop : j.op <;> simp only [hop] at hs <;> omega

theorem chroma_stride (hj : JobChecked p j) : j.w / 2 ≤ j.uvs := by
  have hs := hj.strides
  unfold Job.stridesOk at hs
  cases hop : j.op <;> simp only [hop] at hs <;> omega

theorem yuy2_strides (hj : JobChecked p j) (hop : j.op = .yuy2) : j.ys = j.w ∧ j.uvs = j.w / 2 := by
  have hs := hj.strides
  simp only [Job.stridesOk, hop] at hs
  exact ⟨hs.2.1, hs.2.2.1⟩

theorem inYFP_iff (hj : JobChecked p j) {a : Nat} : j.InYFP a ↔ InRows j.y j.ys j.h j.w a := by
  unfold Job.InYFP
  cases hop : j.op
  case yuy2 => rw [(hj.yuy2_strides hop).1, inRows_tight]
  all_goals rfl

theorem inChromaFP_iff (hj : JobChecked p j) {base a : Nat} :
    j.InChromaFP base a ↔ InRows base j.uvs (j.h / 2) (j.w / 2) a := by
  unfold Job.InChromaFP
  cases hop : j.op
  case yuy2 => rw [(hj.yuy2_strides hop).2, inRows_tight]
  all_goals rfl

/-! ### The footprints share no byte (60_exceptions.md R168) -/

theorem not_sharesByte (hj : JobChecked p j) : ¬ j.SharesByte := planesDisjoint_iff.mp hj.planes

theorem not_dst_of_src (hj : JobChecked p j) {a : Nat} (hs : j.InSrcFP a) : ¬ j.InDstFP a := by
  rintro (hy | hu | hv)
  · exact hj.not_sharesByte ⟨a, .inl ⟨hs, hy⟩⟩
  · exact hj.not_sharesByte ⟨a, .inr (.inl ⟨hs, hu⟩)⟩
  · exact hj.not_sharesByte ⟨a, .inr (.inr (.inl ⟨hs, hv⟩))⟩

theorem not_u_of_y (hj : JobChecked p j) {a : Nat} (hy : j.InYFP a) : ¬ j.InChromaFP j.u a :=
  fun hu => hj.not_sharesByte ⟨a, .inr (.inr (.inr (.inl ⟨hy, hu⟩)))⟩

theorem not_v_of_y (hj : JobChecked p j) {a : Nat} (hy : j.InYFP a) : ¬ j.InChromaFP j.v a :=
  fun hv => hj.not_sharesByte ⟨a, .inr (.inr (.inr (.inr (.inl ⟨hy, hv⟩))))⟩

theorem not_v_of_u (hj : JobChecked p j) {a : Nat} (hu : j.InChromaFP j.u a) : ¬ j.InChromaFP j.v a :=
  fun hv => hj.not_sharesByte ⟨a, .inr (.inr (.inr (.inr (.inr ⟨hu, hv⟩))))⟩

end JobChecked

/-! ### The samples a unit stores -/

/-- The pixels of a row a unit stands for: one, or the two of a macropixel (10_state.md R34). -/
def Job.unitPixels (j : Job) : Nat :=
  match j.op with
  | .rgb32 => 1
  | .rgb24 => 1
  | .yuy2 => 2

/-- The unit of a pixel. -/
def Job.unitAt (j : Job) (row x : Nat) : WorkUnit := { row := row, col := x / j.unitPixels }

/-- `a` is the luma sample of a pixel of the unit. -/
def Job.StoresLuma (j : Job) (u : WorkUnit) (a : Nat) : Prop :=
  ∃ i x, i < j.h ∧ x < j.w ∧ u = j.unitAt i x ∧ a = j.y + (i * j.ys + x)

/-- `a` is the sample, in the chroma plane at `base`, of a 2×2 block whose top-left pixel is one of the unit. -/
def Job.StoresChroma (j : Job) (base : Nat) (u : WorkUnit) (a : Nat) : Prop :=
  ∃ k n, k < j.h / 2 ∧ n < j.w / 2 ∧ u = j.unitAt (2 * k) (2 * n) ∧ a = base + (k * j.uvs + n)

theorem Job.unitAt_of_rgb {j : Job} (h : j.op = .rgb32 ∨ j.op = .rgb24) (i x : Nat) :
    j.unitAt i x = { row := i, col := x } := by
  rcases h with h | h <;> simp [Job.unitAt, Job.unitPixels, h]

theorem Job.unitAt_of_yuy2 {j : Job} (h : j.op = .yuy2) (i x : Nat) : j.unitAt i x = { row := i, col := x / 2 } := by
  simp [Job.unitAt, Job.unitPixels, h]

theorem Job.op_cases (j : Job) : (j.op = .rgb32 ∨ j.op = .rgb24) ∨ j.op = .yuy2 := by
  cases j.op <;> simp

/-- The units of a job are those of its pixels. -/
theorem JobChecked.unitAt_mem {p : Platform} {j : Job} (hj : JobChecked p j) {i x : Nat} (hi : i < j.h) (hx : x < j.w) :
    j.unitAt i x ∈ j.units := by
  have hw := hj.evenWidth
  rw [mem_units]
  rcases j.op_cases with h | h
  · rw [Job.unitAt_of_rgb h, Job.unitCols_of_rgb h]
    exact ⟨hi, hx⟩
  · rw [Job.unitAt_of_yuy2 h, Job.unitCols_of_yuy2 h]
    exact ⟨hi, by simp only; omega⟩

section
variable {p : Platform} {j : Job} {u u' : WorkUnit} {a b base : Nat}

theorem storesLuma_of_rgb (h : j.op = .rgb32 ∨ j.op = .rgb24) (hu : u ∈ j.units) :
    j.StoresLuma u a ↔ a = rgbYAddr j u := by
  rw [mem_units, Job.unitCols_of_rgb h] at hu
  simp only [Job.StoresLuma, Job.unitAt_of_rgb h, rgbYAddr]
  constructor
  · rintro ⟨i, x, -, -, rfl, rfl⟩
    exact (Nat.add_assoc ..).symm
  · rintro rfl
    exact ⟨u.row, u.col, hu.1, hu.2, rfl, Nat.add_assoc ..⟩

theorem storesChroma_of_rgb (h : j.op = .rgb32 ∨ j.op = .rgb24) (hj : JobChecked p j) (hu : u ∈ j.units) :
    j.StoresChroma base u a ↔ carriesChroma u = true ∧ a = rgbChromaAddr j base u := by
  have hw := hj.evenWidth
  have hh := hj.evenHeight
  rw [mem_units, Job.unitCols_of_rgb h] at hu
  simp only [Job.StoresChroma, Job.unitAt_of_rgb h, carriesChroma, rgbChromaAddr, Bool.and_eq_true, decide_eq_true_eq]
  constructor
  · rintro ⟨k, n, -, -, rfl, rfl⟩
    simp [Nat.add_assoc]
  · rintro ⟨⟨hrow, hcol⟩, rfl⟩
    refine ⟨u.row / 2, u.col / 2, by omega, by omega, ?_, Nat.add_assoc ..⟩
    rw [Nat.mul_div_cancel' (Nat.dvd_of_mod_eq_zero hrow), Nat.mul_div_cancel' (Nat.dvd_of_mod_eq_zero hcol)]

theorem storesLuma_of_yuy2 (h : j.op = .yuy2) (hj : JobChecked p j) (hu : u ∈ j.units) :
    j.StoresLuma u a ↔ a = yuy2YAddr j u ∨ a = yuy2YAddr j u + 1 := by
  have hw := hj.evenWidth
  obtain ⟨i, c⟩ := u
  simp only [mem_units, Job.unitCols_of_yuy2 h] at hu
  simp only [Job.StoresLuma, Job.unitAt_of_yuy2 h, yuy2YAddr, (hj.yuy2_strides h).1]
  constructor
  · rintro ⟨i, x, -, -, ⟨⟩, rfl⟩
    omega
  · rintro (rfl | rfl)
    · exact ⟨i, 2 * c, hu.1, by omega, by simp, by omega⟩
    · exact ⟨i, 2 * c + 1, hu.1, by omega, by simp; omega, by omega⟩

theorem storesChroma_of_yuy2 (h : j.op = .yuy2) (hj : JobChecked p j) (hu : u ∈ j.units) :
    j.StoresChroma base u a ↔ chromaRow u = true ∧ a = yuy2ChromaAddr j base u := by
  have hh := hj.evenHeight
  rw [mem_units, Job.unitCols_of_yuy2 h] at hu
  simp only [Job.StoresChroma, Job.unitAt_of_yuy2 h, chromaRow, yuy2ChromaAddr, decide_eq_true_eq,
    (hj.yuy2_strides h).2]
  constructor
  · rintro ⟨k, n, -, -, rfl, rfl⟩
    simp [Nat.add_assoc]
  · rintro ⟨hrow, rfl⟩
    refine ⟨u.row / 2, u.col, by omega, hu.2, ?_, Nat.add_assoc ..⟩
    rw [Nat.mul_div_cancel' (Nat.dvd_of_mod_eq_zero hrow), Nat.mul_div_cancel_left _ (by decide)]

/-- The addresses a unit of a checked job stores to are those of its samples. -/
theorem mem_unitWrites_addrs (hj : JobChecked p j) (hu : u ∈ j.units) (m : Memory) :
    a ∈ (unitWrites m j u).map Prod.fst ↔
      j.StoresLuma u a ∨ j.StoresChroma j.u u a ∨ j.StoresChroma j.v u a := by
  have hrgb (h : j.op = .rgb32 ∨ j.op = .rgb24) (r g b : Int) : a ∈ (rgbWrites j u r g b).map Prod.fst ↔
      j.StoresLuma u a ∨ j.StoresChroma j.u u a ∨ j.StoresChroma j.v u a := by
    rw [storesLuma_of_rgb h hu, storesChroma_of_rgb h hj hu, storesChroma_of_rgb h hj hu, rgbWrites_addrs]
    split <;> simp [*]
  unfold unitWrites
  cases hop : j.op
  case rgb32 => exact hrgb (.inl hop) _ _ _
  case rgb24 => exact hrgb (.inr hop) _ _ _
  case yuy2 =>
    rw [storesLuma_of_yuy2 hop hj hu, storesChroma_of_yuy2 hop hj hu, storesChroma_of_yuy2 hop hj hu]
    simp only [yuy2Writes_addrs]
    split <;> simp [*, or_assoc]

/-! ### The samples of a plane, each stored by one unit -/

theorem inYFP_iff_stored (hj : JobChecked p j) : j.InYFP a ↔ ∃ u ∈ j.units, j.StoresLuma u a := by
  rw [hj.inYFP_iff, inRows_iff]
  constructor
  · rintro ⟨i, x, hi, hx, rfl⟩
    exact ⟨j.unitAt i x, hj.unitAt_mem hi hx, i, x, hi, hx, rfl, rfl⟩
  · rintro ⟨_, -, i, x, hi, hx, -, rfl⟩
    exact ⟨i, x, hi, hx, rfl⟩

theorem inChromaFP_iff_stored (hj : JobChecked p j) : j.InChromaFP base a ↔ ∃ u ∈ j.units, j.StoresChroma base u a := by
  rw [hj.inChromaFP_iff, inRows_iff]
  constructor
  · rintro ⟨k, n, hk, hn, rfl⟩
    exact ⟨j.unitAt (2 * k) (2 * n), hj.unitAt_mem (by omega) (by omega), k, n, hk, hn, rfl, rfl⟩
  · rintro ⟨_, -, k, n, hk, hn, -, rfl⟩
    exact ⟨k, n, hk, hn, rfl⟩

/-- DstFP is where the units store (R62). -/
theorem inDstFP_iff_stored (hj : JobChecked p j) (m : Memory) :
    j.InDstFP a ↔ ∃ u ∈ j.units, a ∈ (unitWrites m j u).map Prod.fst := by
  simp only [Job.InDstFP, inYFP_iff_stored hj, inChromaFP_iff_stored hj, ← exists_or, ← and_or_left]
  exact exists_congr fun u => and_congr_right fun hu => (mem_unitWrites_addrs hj hu m).symm

theorem storesLuma_unique (hj : JobChecked p j) (h : j.StoresLuma u a) (h' : j.StoresLuma u' a) : u = u' := by
  obtain ⟨i, x, -, hx, rfl, rfl⟩ := h
  obtain ⟨i', x', -, hx', rfl, ha⟩ := h'
  obtain ⟨rfl, rfl⟩ := rowCol_inj hj.luma_stride hx hx' (Nat.add_left_cancel ha)
  rfl

theorem storesChroma_unique (hj : JobChecked p j) (h : j.StoresChroma base u a) (h' : j.StoresChroma base u' a) :
    u = u' := by
  obtain ⟨k, n, -, hn, rfl, rfl⟩ := h
  obtain ⟨k', n', -, hn', rfl, ha⟩ := h'
  obtain ⟨rfl, rfl⟩ := rowCol_inj hj.chroma_stride hn hn' (Nat.add_left_cancel ha)
  rfl

theorem luma_ne_u (hj : JobChecked p j) (hu : u ∈ j.units) (hu' : u' ∈ j.units) (h : j.StoresLuma u a)
    (h' : j.StoresChroma j.u u' b) : a ≠ b := by
  rintro rfl
  exact hj.not_u_of_y ((inYFP_iff_stored hj).mpr ⟨u, hu, h⟩) ((inChromaFP_iff_stored hj).mpr ⟨u', hu', h'⟩)

theorem luma_ne_v (hj : JobChecked p j) (hu : u ∈ j.units) (hu' : u' ∈ j.units) (h : j.StoresLuma u a)
    (h' : j.StoresChroma j.v u' b) : a ≠ b := by
  rintro rfl
  exact hj.not_v_of_y ((inYFP_iff_stored hj).mpr ⟨u, hu, h⟩) ((inChromaFP_iff_stored hj).mpr ⟨u', hu', h'⟩)

theorem u_ne_v (hj : JobChecked p j) (hu : u ∈ j.units) (hu' : u' ∈ j.units) (h : j.StoresChroma j.u u a)
    (h' : j.StoresChroma j.v u' b) : a ≠ b := by
  rintro rfl
  exact hj.not_v_of_u ((inChromaFP_iff_stored hj).mpr ⟨u, hu, h⟩) ((inChromaFP_iff_stored hj).mpr ⟨u', hu', h'⟩)

/-- No two units store to one address: not within a plane, nor across two planes (R62). -/
theorem unitWrites_unique (hj : JobChecked p j) (hu : u ∈ j.units) (hu' : u' ∈ j.units) {m m' : Memory}
    (h : a ∈ (unitWrites m j u).map Prod.fst) (h' : a ∈ (unitWrites m' j u').map Prod.fst) : u = u' := by
  rcases (mem_unitWrites_addrs hj hu m).mp h with h | h | h <;>
    rcases (mem_unitWrites_addrs hj hu' m').mp h' with h' | h' | h'
  · exact storesLuma_unique hj h h'
  · exact absurd rfl (luma_ne_u hj hu hu' h h')
  · exact absurd rfl (luma_ne_v hj hu hu' h h')
  · exact absurd rfl (luma_ne_u hj hu' hu h' h)
  · exact storesChroma_unique hj h h'
  · exact absurd rfl (u_ne_v hj hu hu' h h')
  · exact absurd rfl (luma_ne_v hj hu' hu h' h)
  · exact absurd rfl (u_ne_v hj hu' hu h' h)
  · exact storesChroma_unique hj h h'

/-- No unit stores to an address twice (R62). -/
theorem unitWrites_nodup (hj : JobChecked p j) (hu : u ∈ j.units) (m : Memory) :
    ((unitWrites m j u).map Prod.fst).Nodup := by
  have hrgb (h : j.op = .rgb32 ∨ j.op = .rgb24) (r g b : Int) : ((rgbWrites j u r g b).map Prod.fst).Nodup := by
    have hy := (storesLuma_of_rgb h hu).mpr rfl
    rw [rgbWrites_addrs]
    split
    · rename_i hc
      have hcu := (storesChroma_of_rgb (base := j.u) h hj hu).mpr ⟨hc, rfl⟩
      have hcv := (storesChroma_of_rgb (base := j.v) h hj hu).mpr ⟨hc, rfl⟩
      simp [luma_ne_u hj hu hu hy hcu, luma_ne_v hj hu hu hy hcv, u_ne_v hj hu hu hcu hcv]
    · exact List.nodup_singleton _
  unfold unitWrites
  cases hop : j.op
  case rgb32 => exact hrgb (.inl hop) _ _ _
  case rgb24 => exact hrgb (.inr hop) _ _ _
  case yuy2 =>
    have hy := (storesLuma_of_yuy2 hop hj hu).mpr (.inl rfl)
    have hy' := (storesLuma_of_yuy2 hop hj hu).mpr (.inr rfl)
    simp only [yuy2Writes_addrs]
    split
    · rename_i hc
      have hcu := (storesChroma_of_yuy2 (base := j.u) hop hj hu).mpr ⟨hc, rfl⟩
      have hcv := (storesChroma_of_yuy2 (base := j.v) hop hj hu).mpr ⟨hc, rfl⟩
      simp [luma_ne_u hj hu hu hy hcu, luma_ne_v hj hu hu hy hcv, luma_ne_u hj hu hu hy' hcu,
        luma_ne_v hj hu hu hy' hcv, u_ne_v hj hu hu hcu hcv]
    · simp

end

end Sys2Proof.Machine

open Sys2Proof.Machine

/-- Settles O26: the samples of a plane fill its rows, each belongs to one unit, and the planes share no byte. -/
theorem eachDestinationByteOnce : Obligations.EachDestinationByteOnce := by
  unfold Obligations.EachDestinationByteOnce
  intro p j m hj
  exact ⟨fun _ => inDstFP_iff_stored hj m, fun _ hu => unitWrites_nodup hj hu m,
    fun _ _ hu _ hu' => unitWrites_unique hj hu hu'⟩

/-- Settles O27: a unit reads bytes of its own pixels only, which lie in SrcFP, and computes its writes from them. -/
theorem unitReadsSourceOnly : Obligations.UnitReadsSourceOnly := by
  unfold Obligations.UnitReadsSourceOnly
  exact ⟨fun _ _ hj _ hu _ => unitReads_inSrc hj hu, fun _ _ _ _ => unitWrites_congr⟩
end

section
/-! PROOFS. A running job: one engine turn performs one pending unit, which keeps the progress of the job; hosts keep it
short of a hazard; and the units taken in any order leave the same memory (spec 20_memory.md R62, R65 to R67;
70_reset_and_hazards.md R201 to R203). -/

namespace Sys2Proof.Machine

/-! ### One engine turn -/

/-- An engine turn of a checked job with units pending performs one of them (R65; 60_exceptions.md R172). -/
theorem engineStep_performs {s : State} {j : Job} (hj : s.job = some j) (hb : s.status.busy = true)
    (hc : JobChecked s.plat j) (hunits : ∀ u ∈ s.pending, u ∈ j.units) (hp : s.pending ≠ []) (k : Nat) :
    ∃ u, s.pending[k % s.pending.length]? = some u ∧
      engineStep k s = .next (performUnit j u { s with pending := s.pending.eraseIdx (k % s.pending.length) }) := by
  have hlt : k % s.pending.length < s.pending.length := Nat.mod_lt _ (List.length_pos_iff.mpr hp)
  have hu := List.getElem?_eq_getElem hlt
  refine ⟨_, hu, ?_⟩
  simp [engineStep, jobStep, hj, hb, hu, unitAccessOk_of_checked hc (hunits _ (mem_of_taken hu))]

/-- An engine turn that takes a unit leaves one fewer pending. -/
theorem length_eraseIdx_taken {s : State} {i : Nat} {u : WorkUnit} (h : s.pending[i]? = some u) :
    (s.pending.eraseIdx i).length + 1 = s.pending.length := by
  obtain ⟨hlt, -⟩ := List.getElem?_eq_some_iff.mp h
  exact List.length_eraseIdx_add_one hlt

/-! ### A job that runs untainted -/

/-- The job `j`, started when memory was `m0`, runs untainted: what of the invariant the engine's turns need and keep,
and the job's progress. -/
structure Running (m0 : Memory) (j : Job) (s : State) : Prop where
  busy : s.status.busy = true
  job : s.job = some j
  untainted : s.tainted = false
  checked : JobChecked s.plat j
  memWf : Memory.wf s.mem = true
  nodup : s.pending.Nodup
  units : ∀ u ∈ s.pending, u ∈ j.units
  progress : Progress m0 j s

theorem Running.of_inv {m0 : Memory} {j : Job} {s : State} (hi : s.Inv) (hj : s.job = some j)
    (ht : s.tainted = false) (hp : Progress m0 j s) : Running m0 j s :=
  ⟨hi.busy_of_job hj, hj, ht, hi.checked j hj, hi.memWf, hi.pendingNodup, hi.pendingUnits j hj, hp⟩

theorem JustStarted.running {j : Job} {s : State} (h : JustStarted j s) : Running s.mem j s where
  busy := h.busy
  job := h.job
  untainted := h.untainted
  checked := h.checked
  memWf := h.memWf
  nodup := h.pending ▸ units_nodup j
  units := by rw [h.pending]; exact fun _ hu => hu
  progress :=
    { source := fun _ _ => rfl
      performed := fun u hu hnot => absurd (h.pending ▸ hu) hnot
      waiting := fun _ _ _ _ => rfl }

namespace Running

variable {m0 : Memory} {j : Job} {s t : State}

/-- The schedule and the draws have no part in it. -/
theorem frame (hr : Running m0 j s) (sched : List Turn) (draws : Nat) :
    Running m0 j { s with sched := sched, draws := draws } :=
  { hr with progress := { hr.progress with } }

theorem withHost (hr : Running m0 j s) (k : Nat) (h : HostAgent) : Running m0 j (withHost s k h) :=
  { hr with progress := { hr.progress with } }

/-- The source being unchanged, a unit computes what it would have computed at the start. -/
theorem unitWrites_eq (hr : Running m0 j s) {u : WorkUnit} (hu : u ∈ j.units) :
    unitWrites s.mem j u = unitWrites m0 j u :=
  unitWrites_congr fun a ha => hr.progress.source a (covers_src.mpr (unitReads_inSrc hr.checked hu ha))

theorem performUnit_mem (hr : Running m0 j s) {i : Nat} {u : WorkUnit} (hu : s.pending[i]? = some u) :
    (performUnit j u { s with pending := s.pending.eraseIdx i }).mem = storeAll s.mem (unitWrites m0 j u) := by
  rw [← hr.unitWrites_eq (hr.units u (mem_of_taken hu))]
  simp [Machine.performUnit, hr.untainted]

/-- The unit taken has its final bytes; every other byte of the footprints, belonging to the source or to another unit,
is as it was. -/
theorem performUnit (hr : Running m0 j s) {i : Nat} {u : WorkUnit} (hu : s.pending[i]? = some u) :
    Running m0 j (performUnit j u { s with pending := s.pending.eraseIdx i }) := by
  have huj := hr.units u (mem_of_taken hu)
  have hmem := hr.performUnit_mem hu
  have hother {v : WorkUnit} (hv : v ∈ j.units) (hne : v ≠ u) {w : Nat × Byte} (hw : w ∈ unitWrites m0 j v) :
      Cells.read (storeAll s.mem (unitWrites m0 j u)) w.1 = Cells.read s.mem w.1 :=
    read_storeAll_frame hr.memWf fun h =>
      hne (unitWrites_unique hr.checked hv huj (List.mem_map_of_mem hw) h)
  refine ⟨by simp [hr.busy], by simp [hr.job], by simp [hr.untainted], by simpa using hr.checked, ?_, ?_, ?_, ?_⟩
  · rw [hmem]
    exact storeAll_wf hr.memWf
  · simpa using hr.nodup.sublist (List.eraseIdx_sublist _ _)
  · simpa using fun v hv => hr.units v (List.mem_of_mem_eraseIdx hv)
  · refine ⟨fun a ha => ?_, fun v hv hnot w hw => ?_, fun v hv w hw => ?_⟩ <;> rw [hmem]
    · rw [read_storeAll_frame hr.memWf fun h => hr.checked.not_dst_of_src (covers_src.mp ha)
        (unitWrites_inDst hr.checked huj h)]
      exact hr.progress.source a ha
    · rw [performUnit_pending, mem_eraseIdx_of_nodup hr.nodup hu] at hnot
      by_cases hvu : v = u
      · subst hvu
        exact read_storeAll_mem hr.memWf (unitWrites_nodup hr.checked hv m0) hw
      · rw [hother hv hvu hw]
        exact hr.progress.performed v hv (fun h => hnot ⟨h, hvu⟩) w hw
    · rw [performUnit_pending, mem_eraseIdx_of_nodup hr.nodup hu] at hv
      rw [hother (hr.units v hv.1) hv.2 hw]
      exact hr.progress.waiting v hv.1 w hw

/-- Progress is told by the pending units and the bytes of the footprints. -/
theorem progress_congr (hr : Running m0 j s) (hp : t.pending = s.pending)
    (hread : ∀ a, j.InSrcFP a ∨ j.InDstFP a → Cells.read t.mem a = Cells.read s.mem a) : Progress m0 j t := by
  have hdst {u : WorkUnit} (hu : u ∈ j.units) {w : Nat × Byte} (hw : w ∈ unitWrites m0 j u) :
      Cells.read t.mem w.1 = Cells.read s.mem w.1 :=
    hread _ (.inr (unitWrites_inDst hr.checked hu (List.mem_map_of_mem hw)))
  refine ⟨fun a ha => ?_, fun u hu hnot w hw => ?_, fun u hu w hw => ?_⟩
  · rw [hread a (.inl (covers_src.mp ha))]
    exact hr.progress.source a ha
  · rw [hdst hu hw]
    exact hr.progress.performed u hu (hp ▸ hnot) w hw
  · rw [hp] at hu
    rw [hdst (hr.units u hu) hw]
    exact hr.progress.waiting u hu w hw

/-- While the job runs a command is ignored, and a host's store lies outside the footprints or taints the job. -/
theorem progress_of_effect (hr : Running m0 j s) (h : HostEffect s t) (ht : t.tainted = false) : Progress m0 j t := by
  cases h with
  | quiet => exact hr.progress
  | param r v => exact hr.progress_congr rfl fun _ _ => rfl
  | command i =>
    have hignored : commandWrite i.op i.legacyBit s = ignoreWhileBusy s := by simp [commandWrite, hr.busy]
    rw [hignored]
    exact hr.progress_congr rfl fun _ _ => rfl
  | reserved =>
    have hignored : refuseReserved s = ignoreWhileBusy s := by simp [refuseReserved, hr.busy]
    rw [hignored]
    exact hr.progress_congr rfl fun _ _ => rfl
  | store a b hout =>
    refine hr.progress_congr rfl fun a' ha' => ?_
    have hne : a' ≠ a := by
      rintro rfl
      simp [(inRunningFootprint_iff hr.busy hr.job).mpr ha'] at hout
    exact (Cells.read_write hr.memWf a a' b).trans (if_neg hne)
  | hazard a _ => simp at ht

theorem progress_of_hostStep (hr : Running m0 j s) {k : Nat} (h : hostStep k s = .next t) (ht : t.tainted = false) :
    Progress m0 j t := by
  rcases hostStep_cases h with rfl | ⟨_, a', -, -, -, he⟩
  · exact hr.progress
  · exact (hr.withHost k a').progress_of_effect he ht

theorem progress_of_engineStep (hr : Running m0 j s) {k : Nat} (h : engineStep k s = .next t) (hj : t.job = some j) :
    Progress m0 j t := by
  rcases engineStep_cases h with ⟨-, rfl⟩ | ⟨_, -, -, -, rfl⟩ | ⟨_, u, hj', -, hu, -, rfl⟩
  · exact hr.progress
  · simp at hj
  · obtain rfl := Option.some.inj (hr.job.symm.trans hj')
    exact (hr.performUnit hu).progress

end Running

/-! ### Runs of engine turns -/

/-- A run can be cut in two: after `n` steps it goes on from the state they leave. -/
theorem coreRun_add (M : Host.Core) {n n' : Nat} {s t : M.State} (h : M.run n s = .next t) :
    M.run (n + n') s = M.run n' t := by
  induction n generalizing s with
  | zero =>
    injection h with h
    rw [h, Nat.zero_add]
  | succ n ih =>
    rw [Nat.succ_add]
    simp only [Host.Core.run] at h
    split at h
    · rename_i s' hs
      exact (coreRun_next M hs).trans (ih h)
    · cases h
    · cases h

/-- From `s` to `t` the engine performed `n` units of the running job, which changed the bytes of its destination
footprint only. -/
structure UnitsPerformed (m0 : Memory) (j : Job) (n : Nat) (s t : State) : Prop where
  running : Running m0 j t
  count : t.pending.length + n = s.pending.length
  state : t = { s with mem := t.mem, pending := t.pending, sched := t.sched }
  frame : ∀ a, ¬ j.InDstFP a → Cells.read t.mem a = Cells.read s.mem a

theorem UnitsPerformed.trans {m0 : Memory} {j : Job} {n n' : Nat} {s t t' : State}
    (h : UnitsPerformed m0 j n s t) (h' : UnitsPerformed m0 j n' t t') : UnitsPerformed m0 j (n' + n) s t' where
  running := h'.running
  count := by rw [← Nat.add_assoc, h'.count, h.count]
  state := by rw [h'.state, h.state]
  frame a ha := (h'.frame a ha).trans (h.frame a ha)

namespace Running

variable {m0 : Memory} {j : Job} {s : State}

/-- A scheduled engine turn performs a unit while one is pending. -/
theorem step_unit (hr : Running m0 j s) {k : Nat} {rest : List Turn} (hs : s.sched = .engine k :: rest)
    (hp : s.pending ≠ []) : ∃ t, step s = .next t ∧ t.sched = rest ∧ UnitsPerformed m0 j 1 s t := by
  obtain ⟨u, hu, hstep⟩ := engineStep_performs (s := { s with sched := rest }) hr.job hr.busy hr.checked hr.units hp k
  refine ⟨_, (step_of_sched hs).trans hstep, performUnit_sched .., (hr.frame rest s.draws).performUnit hu, ?_, ?_, ?_⟩
  · rw [performUnit_pending]
    exact length_eraseIdx_taken hu
  · simp [Machine.performUnit, hr.untainted]
  · intro a ha
    rw [(hr.frame rest s.draws).performUnit_mem hu]
    exact read_storeAll_frame hr.memWf fun h => ha (unitWrites_inDst hr.checked (hr.units u (mem_of_taken hu)) h)

/-- Scheduled engine turns perform a unit each, while there are enough. -/
theorem run_units (hr : Running m0 j s) {ks : List Nat} {rest : List Turn} (hs : s.sched = ks.map .engine ++ rest)
    (hlen : ks.length ≤ s.pending.length) : ∃ t : State, Host.Core.run Sys2Proof.core ks.length s = .next t ∧
      t.sched = rest ∧ UnitsPerformed m0 j ks.length s t := by
  induction ks generalizing s with
  | nil => exact ⟨s, rfl, hs, hr, rfl, rfl, fun _ _ => rfl⟩
  | cons k ks ih =>
    obtain ⟨s', hstep, hsched, hunit⟩ := hr.step_unit hs (List.ne_nil_of_length_pos (Nat.lt_of_lt_of_le (by simp) hlen))
    obtain ⟨t, hrun, ht, hunits⟩ := ih hunit.running hsched (by
      have := hunit.count
      simp only [List.length_cons] at hlen
      omega)
    exact ⟨t, (run_next hstep).trans hrun, ht, hunit.trans hunits⟩

end Running

/-- `m` is the memory a job started in `m0` leaves: every unit's results, and every byte outside DstFP as it was. -/
structure Converted (m0 : Memory) (j : Job) (m : Memory) : Prop where
  memWf : Memory.wf m = true
  results : ∀ u ∈ j.units, ∀ w ∈ unitWrites m0 j u, Cells.read m w.1 = w.2
  frame : ∀ a, ¬ j.InDstFP a → Cells.read m a = Cells.read m0 a

/-- There is one such memory: each byte of DstFP is the result of a unit. -/
theorem Converted.unique {p : Platform} {j : Job} (hj : JobChecked p j) {m0 m m' : Memory} (h : Converted m0 j m)
    (h' : Converted m0 j m') : m = m' := by
  refine Cells.eq_of_read h.memWf h'.memWf fun a => ?_
  by_cases ha : j.InDstFP a
  · obtain ⟨u, hu, hmem⟩ := (inDstFP_iff_stored hj m0).mp ha
    obtain ⟨w, hw, rfl⟩ := List.mem_map.mp hmem
    rw [h.results u hu w hw, h'.results u hu w hw]
  · rw [h.frame a ha, h'.frame a ha]

/-- A job just started, run for one engine turn per unit and one more, in any order, completes with its conversion in
memory (R66). -/
theorem JustStarted.run_completes {j : Job} {s : State} (h : JustStarted j s) {ks : List Nat}
    (hs : s.sched = ks.map .engine) (hlen : ks.length = s.pending.length + 1) :
    ∃ m, Converted s.mem j m ∧
      Host.Core.run Sys2Proof.core ks.length s = .next (completeJob { s with mem := m, sched := [] }) := by
  rcases List.eq_nil_or_concat' ks with rfl | ⟨ks, k, rfl⟩
  · simp at hlen
  rw [List.map_append] at hs
  rw [List.length_append, List.length_singleton] at hlen ⊢
  obtain ⟨t, hrun, hsched, hunits⟩ := h.running.run_units hs (by omega)
  have hnone : t.pending = [] := List.eq_nil_of_length_eq_zero (by have := hunits.count; omega)
  refine ⟨t.mem, ⟨hunits.running.memWf, fun u hu => ?_, hunits.frame⟩, ?_⟩
  · exact hunits.running.progress.performed u hu (by simp [hnone])
  · have hlast : step t = .next (completeJob { t with sched := [] }) :=
      (step_of_sched hsched).trans
        (engineStep_completes (s := { t with sched := [] }) hunits.running.job hunits.running.busy hnone k)
    refine (coreRun_add _ hrun).trans ((run_next hlast).trans ?_)
    rw [hunits.state]
    rfl

end Sys2Proof.Machine

open Sys2Proof.Machine

/-- Settles O37: a host turn leaves the bytes of both footprints alone, an engine turn performs one unit, and a reset or
the completion step ends the job. -/
theorem progressKept : Obligations.ProgressKept := by
  unfold Obligations.ProgressKept
  intro m0 j s t hi hj ht hp hstep hj' ht'
  obtain ⟨sched, draws, s', rfl, hturn⟩ := step_cases hstep
  have hr := (Running.of_inv hi hj ht hp).frame sched draws
  rcases hturn with rfl | ⟨k, hh⟩ | ⟨k, he⟩ | rfl | ⟨_, u, -, rfl⟩
  · exact hr.progress
  · exact hr.progress_of_hostStep hh ht'
  · exact hr.progress_of_engineStep he hj'
  · simp at hj'
  · simp at hj'

/-- Settles O32: every turn but the last performs a unit, and the last is the completion step. -/
theorem jobCompletes : Obligations.JobCompletes := by
  unfold Obligations.JobCompletes
  intro j s ks h hs hlen
  obtain ⟨m, -, hrun⟩ := h.run_completes hs hlen
  exact ⟨_, hrun, rfl, rfl, rfl, rfl, rfl, rfl⟩

/-- Settles O35: both orders end in the one memory that holds the conversion. -/
theorem unitOrderIrrelevant : Obligations.UnitOrderIrrelevant := by
  unfold Obligations.UnitOrderIrrelevant
  intro j s t t' ks ks' h hlen hlen' hrun hrun'
  have hstart (sched : List Turn) : JustStarted j { s with sched := sched } := { h with }
  obtain ⟨m, hm, hend⟩ := (hstart (ks.map .engine)).run_completes rfl hlen
  obtain ⟨m', hm', hend'⟩ := (hstart (ks'.map .engine)).run_completes rfl hlen'
  obtain rfl := Converted.unique h.checked hm hm'
  rw [hrun] at hend
  rw [hrun'] at hend'
  injection hend with hend
  injection hend' with hend'
  rw [hend, hend']

/-- Settles O55: a busy machine has a job, and with no turn to come the engine steps: it performs a unit, or completes the
job when none is pending. -/
theorem engineRunsWhenScheduleEnds : Obligations.EngineRunsWhenScheduleEnds := by
  unfold Obligations.EngineRunsWhenScheduleEnds
  intro s hi hb hs
  obtain ⟨j, hj⟩ := Option.isSome_iff_exists.mp (hi.busyIffJob.symm.trans hb)
  have hstep : step s = engineStep (Sys2Proof.Config.freeIndex s.draws) { s with draws := s.draws + 1 } := by
    simp [step, takeTurn, runTurn, engineReady, hs, hb, hj]
  by_cases hp : s.pending = []
  · have he := engineStep_completes (s := { s with draws := s.draws + 1 }) hj hb hp (Sys2Proof.Config.freeIndex s.draws)
    exact ⟨_, _, hstep.trans he, he, fun _ => rfl, fun hne => absurd hp hne⟩
  · obtain ⟨u, hu, he⟩ := engineStep_performs (s := { s with draws := s.draws + 1 }) hj hb (hi.checked j hj)
      (hi.pendingUnits j hj) hp (Sys2Proof.Config.freeIndex s.draws)
    refine ⟨_, _, hstep.trans he, he, fun h => absurd h hp, fun _ => ?_⟩
    rw [performUnit_pending]
    exact length_eraseIdx_taken hu
end

section
/-! PROOFS. A host's register reads, the accesses that have no meaning, and its byte accesses to shared memory (spec
10_state.md R22 to R24; 20_memory.md R51, R67, R70, R71; log 9, log 10). -/

namespace Sys2Proof.Machine

/-! ### Temporaries -/

theorem read_setTemp (h : HostAgent) (hwf : Cells.wf h.temps = true) (n n' : Nat) (v : Word) :
    Cells.read (h.setTemp n v).temps n' = if n' = n then v else Cells.read h.temps n' :=
  Cells.read_write hwf n n' v

/-! ### Register accesses -/

theorem readOffset_offset (s : State) (r : Reg) : readOffset s r.offset = readReg s r := by
  simp only [readOffset, atOffset_offset]

/-- A host's word read of a register: the value goes into the temporary, and the host moves on. -/
theorem hostStep_rd {k n : Nat} {s : State} {h : HostAgent} {r : Reg} (hk : s.hosts[k]? = some h)
    (hc : h.current = some (.rd (regAddr s.plat r) 4 n)) :
    hostStep k s = .next (withHost s k (h.advance.setTemp n (readReg s r))) := by
  rw [hostStep_of_current hk hc]
  simp only [hostStmt, windowOffset_reg, readOffset_offset]

/-- A register access without an offset is refused for the reason `windowOffset` gives. -/
theorem hostStep_refused {k a bytes n : Nat} {s : State} {h : HostAgent} {v : Word} {r : Refusal}
    (hk : s.hosts[k]? = some h) (hc : h.current = some (.wr a bytes v) ∨ h.current = some (.rd a bytes n))
    (hw : windowOffset s.plat a bytes = .error r) : hostStep k s = .refused r := by
  rcases hc with hc | hc <;> rw [hostStep_of_current hk hc] <;> simp only [hostStmt, hw]

theorem inWindow_regBase_add (p : Platform) {off : Nat} (h : off < 64) : inWindow p (regBase p + off) = true := by
  simp [inWindow, h]

theorem windowOffset_outside {p : Platform} {a : Nat} (h : inWindow p a = false) (bytes : Nat) :
    windowOffset p a bytes = .error .outsideRegisterWindow := by
  simp [windowOffset, h]

theorem windowOffset_subWord (p : Platform) {off bytes : Nat} (h : off < 64) (hb : bytes ≠ 4) :
    windowOffset p (regBase p + off) bytes = .error .notWordAccess := by
  simp [windowOffset, inWindow_regBase_add p h, hb]

theorem windowOffset_misaligned (p : Platform) {off : Nat} (h : off < 64) (h4 : off % 4 ≠ 0) :
    windowOffset p (regBase p + off) 4 = .error .misalignedAccess := by
  simp [windowOffset, inWindow_regBase_add p h, h4]

/-! ### Byte accesses to shared memory -/

section
variable {k a n : Nat} {b : Byte} {s : State} {h : HostAgent}

theorem hostStep_mem_window (hk : s.hosts[k]? = some h)
    (hc : h.current = some (.memWr a b) ∨ h.current = some (.memRd a n)) (hw : inWindow s.plat a = true) :
    hostStep k s = .refused .notWordAccess := by
  rcases hc with hc | hc <;> rw [hostStep_of_current hk hc] <;> simp [hostStmt, hostMemWr, hostMemRd, hw]

theorem hostStep_mem_outside (hk : s.hosts[k]? = some h)
    (hc : h.current = some (.memWr a b) ∨ h.current = some (.memRd a n)) (hw : inWindow s.plat a = false)
    (ha : 2 ^ 32 ≤ a) : hostStep k s = .fault .hostAddressOutsideMemory := by
  rcases hc with hc | hc <;> rw [hostStep_of_current hk hc] <;>
    simp only [hostStmt, hostMemWr, hostMemRd, withHost_plat, hw, Bool.false_eq_true, if_false, if_pos ha]

theorem hostStep_memRd (hk : s.hosts[k]? = some h) (hc : h.current = some (.memRd a n))
    (hw : inWindow s.plat a = false) (ha : a < 2 ^ 32) :
    hostStep k s = .next (withHost s k (h.advance.setTemp n ((Cells.read s.mem a).setWidth 32))) := by
  rw [hostStep_of_current hk hc]
  simp only [hostStmt, hostMemRd, hw, Bool.false_eq_true, if_false, if_neg (Nat.not_le.mpr ha)]

/-- A byte no footprint of a job holds is in no running footprint (R200). -/
theorem inRunningFootprint_eq_false (h : ∀ j, s.job = some j → ¬ j.InSrcFP a ∧ ¬ j.InDstFP a) :
    inRunningFootprint s a = false := by
  cases hj : s.job with
  | none => simp [inRunningFootprint, hj]
  | some j => simp [inRunningFootprint, hj, ← Bool.not_eq_true, covers_src, covers_dst, h j hj]

theorem hostStep_memWr (hk : s.hosts[k]? = some h) (hc : h.current = some (.memWr a b))
    (hw : inWindow s.plat a = false) (ha : a < 2 ^ 32) (hf : inRunningFootprint s a = false) :
    hostStep k s = .next { withHost s k h.advance with mem := Cells.write s.mem a b } := by
  have hf' : inRunningFootprint (withHost s k h.advance) a = false := hf
  rw [hostStep_of_current hk hc]
  simp only [hostStmt, hostMemWr, withHost_plat, withHost_mem, hw, hf', Bool.false_eq_true, if_false,
    if_neg (Nat.not_le.mpr ha)]

end

end Sys2Proof.Machine

open Sys2Proof.Machine

/-- Settles O43: the host has moved on with the register's value in its temporary, and nothing else is touched. -/
theorem registerReadHasNoSideEffect : Obligations.RegisterReadHasNoSideEffect := by
  unfold Obligations.RegisterReadHasNoSideEffect
  intro s k h r n hk hc hwf
  have hread (n' : Nat) := read_setTemp h.advance hwf n n' (readReg s r)
  have hvalue := (hread n).trans (if_pos rfl)
  refine ⟨h.advance.setTemp n (readReg s r), hostStep_rd hk hc, rfl, rfl, ?_, ?_, hvalue,
    fun n' hn' => (hread n').trans (if_neg hn')⟩ <;>
  · rintro rfl
    exact hvalue

/-- Settles O44: `windowOffset` names the refusal of a register access, and a byte access at an address of the window has
one of its own. -/
theorem subWordAccessRefused : Obligations.SubWordAccessRefused := by
  unfold Obligations.SubWordAccessRefused
  refine fun s k h hk => ⟨fun off bytes v t hlt hc => ⟨fun hb => ?_, ?_⟩, fun a b n hw hc => ?_,
    fun a bytes v t hw hc => ?_⟩
  · exact hostStep_refused hk hc (windowOffset_subWord s.plat hlt hb)
  · rintro rfl h4
    exact hostStep_refused hk hc (windowOffset_misaligned s.plat hlt h4)
  · exact hostStep_mem_window hk hc hw
  · exact hostStep_refused hk hc (windowOffset_outside hw bytes)

/-- Settles O49: outside the window and the running footprints a host's byte access is a plain write or read of memory. -/
theorem hostMemoryAccess : Obligations.HostMemoryAccess := by
  unfold Obligations.HostMemoryAccess
  refine ⟨fun s k h a b hi hk hc hw ha hout => ?_, fun s k h a n hk hc hw ha hwf => ?_⟩
  · have hread (a' : Nat) := Cells.read_write hi.memWf a a' b
    exact ⟨_, hostStep_memWr hk hc hw ha (inRunningFootprint_eq_false hout), (hread a).trans (if_pos rfl),
      fun a' ha' => (hread a').trans (if_neg ha'), rfl, rfl, rfl, rfl, rfl, rfl⟩
  · have hread (n' : Nat) := read_setTemp h.advance hwf n n' ((Cells.read s.mem a).setWidth 32)
    refine ⟨_, hostStep_memRd hk hc hw ha, rfl, rfl, ?_, fun n' hn' => (hread n').trans (if_neg hn')⟩
    rw [hread n, if_pos rfl, BitVec.toNat_setWidth_of_le (by decide)]

/-- Settles O51: past the window check, an address from 2^32 on faults. -/
theorem hostAddressOutsideMemoryFaults : Obligations.HostAddressOutsideMemoryFaults := by
  unfold Obligations.HostAddressOutsideMemoryFaults
  exact fun _ _ _ _ _ _ hk ha hw hc => hostStep_mem_outside hk hc hw ha
end

section
/-! PROOFS. The opcode map: the fields of a command word in plain arithmetic, and the decoder as the inverse of the
encoder (spec 30_encoding.md R80 to R86). -/

namespace Sys2Proof

open Sys2Proof.Machine

/-! ### The fields of a word -/

theorem opField_toNat (w : Word) : (opField w).toNat = w.toNat % 16 := by
  simp [opField]

theorem res0Field_toNat (w : Word) : (res0Field w).toNat = w.toNat / 16 % 16 := by
  simp [res0Field, Nat.shiftRight_eq_div_pow]

theorem res1Field_toNat (w : Word) : (res1Field w).toNat = w.toNat / 512 := by
  have hlt : w.toNat / 512 < 2 ^ 23 := by omega
  simpa [res1Field, Nat.shiftRight_eq_div_pow] using hlt

theorem legacyField_toNat (w : Word) : (legacyField w).toNat = w.toNat / 256 % 2 := Nat.toNat_testBit w.toNat 8

theorem commandWord_toNat (op : BitVec 4) (l : Bool) : (commandWord op l).toNat = 256 * l.toNat + op.toNat := by
  simp only [commandWord, toNat_append_eq_add, BitVec.toNat_ofBool, BitVec.toNat_ofNat]
  omega

/-- A word whose reserved bits are 0 is the one format of R80, filled with its own OP and L. -/
theorem eq_commandWord {w : Word} {op : BitVec 4} {l : Bool} (h0 : res0Field w = 0#4) (h1 : res1Field w = 0#23)
    (hop : opField w = op) (hl : legacyField w = l) : w = commandWord op l := by
  have h0 : w.toNat / 16 % 16 = 0 := by rw [← res0Field_toNat, h0]; rfl
  have h1 : w.toNat / 512 = 0 := by rw [← res1Field_toNat, h1]; rfl
  apply BitVec.eq_of_toNat_eq
  rw [commandWord_toNat, ← hop, ← hl, opField_toNat, legacyField_toNat]
  omega

/-! ### The decoder -/

/-- Every command meets its row of the opcode table. -/
theorem roundTrip : (i : Instr) → Laws.RoundTrip.Statement i
  | .rgb32 => Laws.RoundTrip.rgb32
  | .rgb32Legacy => Laws.RoundTrip.rgb32Legacy
  | .rgb24 => Laws.RoundTrip.rgb24
  | .rgb24Legacy => Laws.RoundTrip.rgb24Legacy
  | .yuy2 => Laws.RoundTrip.yuy2

theorem decode_encode (i : Instr) : decode (encode i) = some i := (roundTrip i).2.2

theorem wf_encode (i : Instr) : CommandWord.wf (encode i) = true := (roundTrip i).2.1

/-- The reserved words in plain arithmetic (R80 to R82, R86). -/
theorem wf_eq_false_iff {w : Word} : CommandWord.wf w = false ↔
    (w.toNat / 16 % 16 ≠ 0 ∨ w.toNat / 512 ≠ 0 ∨ w.toNat % 16 = 0 ∨ 4 ≤ w.toNat % 16 ∨
      (w.toNat % 16 = 3 ∧ w.toNat / 256 % 2 = 1)) := by
  simp only [CommandWord.wf, CommandWord.reservedZero, CommandWord.opLegal, CommandWord.legacyLegal,
    Bool.and_eq_false_iff, Bool.not_eq_false', Bool.and_eq_true, decide_eq_false_iff_not, decide_eq_true_eq]
  omega

/-- The reserved words in the decoder's fields. -/
theorem wf_eq_false_iff_fields {w : Word} : CommandWord.wf w = false ↔
    ((res0Field w ≠ 0#4 ∨ res1Field w ≠ 0#23) ∨
      (opField w ≠ 0x1#4 ∧ opField w ≠ 0x2#4 ∧ opField w ≠ 0x3#4) ∨
      (opField w = 0x3#4 ∧ legacyField w = true)) := by
  simp only [wf_eq_false_iff, ne_eq, ← BitVec.toNat_inj, opField_toNat, res0Field_toNat, res1Field_toNat,
    BitVec.toNat_ofNat, ← Bool.toNat_eq_one, legacyField_toNat]
  omega

/-- The decoder rejects reserved words only, and takes a word for a command only if it is that command's encoding. -/
theorem decode_cases (w : Word) :
    (decode w = none ∧ CommandWord.wf w = false) ∨ ∃ i, decode w = some i ∧ w = encode i := by
  rw [wf_eq_false_iff_fields]
  by_cases hres : res0Field w ≠ 0#4 ∨ res1Field w ≠ 0#23
  · exact .inl ⟨if_pos hres, .inl hres⟩
  obtain ⟨h0, h1⟩ : res0Field w = 0#4 ∧ res1Field w = 0#23 := by simpa using hres
  unfold decode
  rw [if_neg hres]
  split_ifs with hop1 hl hop2 hl hop3 hl
  · exact .inr ⟨.rgb32Legacy, rfl, eq_commandWord h0 h1 hop1 hl⟩
  · exact .inr ⟨.rgb32, rfl, eq_commandWord h0 h1 hop1 (eq_false_of_ne_true hl)⟩
  · exact .inr ⟨.rgb24Legacy, rfl, eq_commandWord h0 h1 hop2 hl⟩
  · exact .inr ⟨.rgb24, rfl, eq_commandWord h0 h1 hop2 (eq_false_of_ne_true hl)⟩
  · exact .inl ⟨rfl, .inr (.inr ⟨hop3, hl⟩)⟩
  · exact .inr ⟨.yuy2, rfl, eq_commandWord h0 h1 hop3 (eq_false_of_ne_true hl)⟩
  · exact .inl ⟨rfl, .inr (.inl ⟨hop1, hop2, hop3⟩)⟩

theorem decode_eq_some_iff {w : Word} {i : Instr} : decode w = some i ↔ w = encode i := by
  constructor
  · intro h
    rcases decode_cases w with ⟨hn, -⟩ | ⟨i', hi, hw⟩
    · simp [hn] at h
    · obtain rfl : i' = i := by simpa [hi] using h
      exact hw
  · rintro rfl
    exact decode_encode i

theorem decode_eq_none_iff {w : Word} : decode w = none ↔ CommandWord.wf w = false := by
  rcases decode_cases w with ⟨hn, hwf⟩ | ⟨i, hi, rfl⟩
  · simp [hn, hwf]
  · simp [hi, wf_encode]

/-- The five words of the opcode map (R85). -/
theorem encode_eq_word : encode .rgb32 = 0x00000001#32 ∧ encode .rgb32Legacy = 0x00000101#32 ∧
    encode .rgb24 = 0x00000002#32 ∧ encode .rgb24Legacy = 0x00000102#32 ∧ encode .yuy2 = 0x00000003#32 :=
  ⟨rfl, rfl, rfl, rfl, rfl⟩

theorem exists_eq_encode_iff {w : Word} : (∃ i, w = encode i) ↔
    w = 0x00000001#32 ∨ w = 0x00000101#32 ∨ w = 0x00000002#32 ∨ w = 0x00000102#32 ∨ w = 0x00000003#32 := by
  constructor
  · rintro ⟨_ | _ | _ | _ | _, h⟩ <;> simp [h, encode_eq_word]
  · rintro (h | h | h | h | h)
    · exact ⟨.rgb32, h⟩
    · exact ⟨.rgb32Legacy, h⟩
    · exact ⟨.rgb24, h⟩
    · exact ⟨.rgb24Legacy, h⟩
    · exact ⟨.yuy2, h⟩

end Sys2Proof

open Sys2Proof

/-- Settles O2: the decoder is the inverse of the encoder, whose values are the five words. -/
theorem decodeIffEncoding : Obligations.DecodeIffEncoding := by
  unfold Obligations.DecodeIffEncoding
  refine ⟨fun w i => decode_eq_some_iff, fun w => ?_, encode_eq_word⟩
  simp only [Option.ne_none_iff_exists', decode_eq_some_iff, exists_eq_encode_iff]

/-- Settles O3: the decoder rejects exactly the words that are not well formed. -/
theorem reservedWordsExactly : Obligations.ReservedWordsExactly := by
  unfold Obligations.ReservedWordsExactly
  exact fun w => decode_eq_none_iff.trans wf_eq_false_iff

/-- Settles O1: each of the five words is an encoding, and each of the four neighbours has a bad field. -/
theorem opcodeMapWords : Obligations.OpcodeMapWords := by
  unfold Obligations.OpcodeMapWords
  refine ⟨⟨decode_encode .rgb32, decode_encode .rgb32Legacy, decode_encode .rgb24, decode_encode .rgb24Legacy,
    decode_encode .yuy2⟩, encode_eq_word, ?_⟩
  simp only [decode_eq_none_iff]
  decide
end

section
/-! PROOFS. What a command written while idle leaves in STATUS (spec 30_encoding.md R89; 60_exceptions.md R160, R162,
R163). -/

namespace Sys2Proof.Machine

/-- A command written while idle starts its job, or is refused for a precondition: not with ERR_CMD, which is for reserved
words. -/
theorem commandWrite_idle {s : State} (hb : s.status.busy = false) (op : Op) (l : Bool) :
    commandWrite op l s = startJob (candidateJob op l s.params) (acceptCommand s) ∨
    ∃ r c, c ≠ .errCmd ∧ commandWrite op l s = refuseCommand (acceptCommand s) r c := by
  rcases commandWrite_cases op l s with ⟨hb', -⟩ | ⟨-, -, h⟩ | ⟨-, -, -, h⟩ | ⟨-, -, -, -, h⟩ | ⟨-, -, -, -, -, h⟩ |
    ⟨-, -, -, -, -, h⟩
  · simp [hb] at hb'
  · exact .inr ⟨.preDim, .errDim, nofun, h⟩
  · exact .inr ⟨.preStride, .errStride, nofun, h⟩
  · exact .inr ⟨.preRange, .errRange, nofun, h⟩
  · exact .inr ⟨.preAlias, .errAlias, nofun, h⟩
  · exact .inl h

/-- STATUS after a command that started a job, and after that job's completion step. -/
theorem Status.started_toWord :
    Status.zero.withBusy.toWord = 0x1#32 ∧ Status.zero.withBusy.completed.toWord = 0x2#32 := by decide

/-- STATUS after a command that was refused. -/
theorem Status.refused_toWord (c : ErrCode) :
    (Status.zero.withError c).toWord = 0x4#32 ||| (BitVec.ofNat 32 c.toBits.toNat <<< 8) := by
  cases c <;> decide

theorem ErrCode.two_le_toBits {c : ErrCode} (h : c ≠ .errCmd) : 2 ≤ c.toBits.toNat := by
  cases c
  case errCmd => exact absurd rfl h
  all_goals decide

end Sys2Proof.Machine

open Sys2Proof.Machine

/-- Settles O21: an idle block starts the job or refuses it with the code of a precondition. -/
theorem commandEndsInDoneOrError : Obligations.CommandEndsInDoneOrError := by
  unfold Obligations.CommandEndsInDoneOrError
  intro i s t hb hexec
  obtain rfl : commandWrite i.op i.legacyBit s = t := by simpa [exec_eq] using hexec
  rcases commandWrite_idle hb i.op i.legacyBit with h | ⟨r, c, hc, h⟩ <;> rw [h]
  · exact .inl ⟨nofun, Status.started_toWord⟩
  · exact .inr ⟨rfl, c.toBits.toNat, ErrCode.two_le_toBits hc, c.toBits_range.2, Status.refused_toWord c⟩
end

section
/-! PROOFS. A host that polls STATUS (spec 30_encoding.md R88, R89). -/

namespace Sys2Proof.Machine

/-- A host's branch changes nothing but its place. -/
theorem hostStep_bnz {k n target : Nat} {mask : Word} {s : State} {h : HostAgent} (hk : s.hosts[k]? = some h)
    (hc : h.current = some (.bnz n mask target)) :
    hostStep k s = .next (withHost s k (h.branch n mask target)) := by
  rw [hostStep_of_current hk hc]
  rfl

theorem HostAgent.branch_pos (h : HostAgent) (n target : Nat) (mask : Word) :
    (h.branch n mask target).pos = if Cells.read h.temps n &&& mask = 0 then h.pos + 1 else target := rfl

/-- BUSY is bit 0 of STATUS (R24). -/
theorem Status.toWord_and_one_eq_zero_iff (st : Status) : st.toWord &&& 0x1#32 = 0 ↔ st.busy = false := by
  have hlayout := statusWordLayout st
  have hbit := st.busy.toNat_lt
  rw [← BitVec.toNat_inj, BitVec.toNat_and, ← Bool.toNat_eq_zero]
  change st.toWord.toNat &&& 1 = 0 ↔ _
  rw [Nat.and_one_is_mod]
  omega

/-- Host `k` holds what was last put there. -/
theorem withHost_getElem? {s : State} {k : Nat} {h : HostAgent} (hk : s.hosts[k]? = some h) (h' : HostAgent) :
    (withHost s k h').hosts[k]? = some h' := by
  simp [(List.getElem?_eq_some_iff.mp hk).1]

/-- A host that has just taken a statement takes a branch as its next one. -/
theorem hostStep_withHost_bnz {k n target : Nat} {mask : Word} {s : State} {h a : HostAgent} (hk : s.hosts[k]? = some h)
    (hc : a.current = some (.bnz n mask target)) :
    hostStep k (withHost s k a) = .next (withHost s k (a.branch n mask target)) := by
  rw [hostStep_bnz (withHost_getElem? hk a) hc]
  simp only [withHost, List.set_set]

/-- A scheduled turn of a host is one step of a run. -/
theorem run_host {k n : Nat} {rest : List Turn} {s t : State} (hs : s.sched = .host k :: rest)
    (h : hostStep k { s with sched := rest } = .next t) :
    Host.Core.run Sys2Proof.core (n + 1) s = Host.Core.run Sys2Proof.core n t :=
  run_next ((step_of_sched hs).trans h)

end Sys2Proof.Machine

open Sys2Proof.Machine

/-- Settles O46: the read puts STATUS into the temporary, and the branch tests its bit 0, which is BUSY. -/
theorem waitIdlePolls : Obligations.WaitIdlePolls := by
  unfold Obligations.WaitIdlePolls
  rintro s k here t h rest hs hk rfl hwf hrd hbnz
  have hread (t' : Nat) := read_setTemp h.advance hwf t t' s.status.toWord
  have hvalue := (hread t).trans (if_pos rfl)
  have hnext : (h.advance.setTemp t s.status.toWord).current = some (.bnz t 0x1#32 h.pos) := hbnz
  refine ⟨(h.advance.setTemp t s.status.toWord).branch t 0x1#32 h.pos, ?_, hvalue,
    fun t' ht' => (hread t').trans (if_neg ht'), rfl, ?_⟩
  · rw [run_host hs (hostStep_rd (r := .status) hk hrd),
      run_host rfl (hostStep_withHost_bnz (s := { s with sched := rest }) hk hnext)]
    rfl
  · rw [HostAgent.branch_pos, hvalue]
    cases hb : s.status.busy
    · exact if_pos ((Status.toWord_and_one_eq_zero_iff _).mpr hb)
    · exact if_neg (mt (Status.toWord_and_one_eq_zero_iff _).mp (by simp [hb]))
end

section
/-! PROOFS. The clamp and the matrix: the clamp as a maximum and a minimum, the shift as a floor, and where the sums and
the samples of channel bytes lie (spec 40_rgb_to_yuv.md R100 to R109). -/

namespace Sys2Proof.Machine

/-! ### The clamp and the shift -/

theorem clip8_eq_max_min (x : Int) : clip8 x = max 0 (min 255 x) := by
  unfold clip8
  split_ifs <;> omega

/-- R101. -/
theorem clip8_of_byte {x : Int} (h0 : 0 ≤ x) (h255 : x ≤ 255) : clip8 x = x := by
  rw [clip8_eq_max_min]
  omega

/-- R11: the floor of the exact quotient. -/
theorem asr_eight_eq_fdiv (x : Int) : asr x 8 = Int.fdiv x 256 := (Int.fdiv_eq_ediv_of_nonneg x (by decide)).symm

/-- A sample as its rule gives it, from its sum and its offset. -/
theorem clip8_asr_add_eq (x c : Int) : clip8 (asr x 8 + c) = max 0 (min 255 (Int.fdiv x 256 + c)) := by
  rw [clip8_eq_max_min, asr_eight_eq_fdiv]

/-- The legacy form is the corrected one with G in the place of B (R106, R107). -/
theorem vLegacySum_eq_vSum (r g : Int) : vLegacySum r g = vSum r g g := rfl

theorem cscVLegacy_eq_cscV (r g : Int) : cscVLegacy r g = cscV r g g := rfl

/-! ### Channel bytes -/

theorem channel_range (x : Byte) : 0 ≤ channel x ∧ channel x ≤ 255 := by
  have := x.isLt
  unfold channel
  omega

section
variable (r g b : Byte)

/-- The corner extremes of the luma sum: black and white (R108). -/
theorem ySum_range : 128 ≤ ySum (channel r) (channel g) (channel b) ∧
    ySum (channel r) (channel g) (channel b) ≤ 56228 := by
  have hr := channel_range r
  have hg := channel_range g
  have hb := channel_range b
  unfold ySum
  omega

/-- The corner extremes of the U sum: yellow and blue (R108). -/
theorem uSum_range : -28432 ≤ uSum (channel r) (channel g) (channel b) ∧
    uSum (channel r) (channel g) (channel b) ≤ 28688 := by
  have hr := channel_range r
  have hg := channel_range g
  have hb := channel_range b
  unfold uSum
  omega

/-- The corner extremes of the V sum: cyan and red (R108). -/
theorem vSum_range : -28432 ≤ vSum (channel r) (channel g) (channel b) ∧
    vSum (channel r) (channel g) (channel b) ≤ 28688 := by
  have hr := channel_range r
  have hg := channel_range g
  have hb := channel_range b
  unfold vSum
  omega

end

/-- A sum whose range the shift and the offset `c` take into [16, `top`] passes the clamp unchanged. -/
theorem studio_of_sum {x lo hi : Int} (hx : lo ≤ x ∧ x ≤ hi) (c top : Int) (hlo : 256 * (16 - c) ≤ lo)
    (hhi : hi < 256 * (top + 1 - c)) (htop : top ≤ 255) :
    (16 ≤ clip8 (asr x 8 + c) ∧ clip8 (asr x 8 + c) ≤ top) ∧ clip8 (asr x 8 + c) = asr x 8 + c := by
  have hfloor : 16 ≤ asr x 8 + c ∧ asr x 8 + c ≤ top := by
    unfold asr
    omega
  rw [clip8_of_byte (by omega) (by omega)]
  exact ⟨hfloor, rfl⟩

end Sys2Proof.Machine

open Sys2Proof.Machine

/-- Settles O4: the clamp as a maximum and a minimum. -/
theorem clampSaturates : Obligations.ClampSaturates := by
  unfold Obligations.ClampSaturates
  intro x
  rw [clip8_eq_max_min]
  omega

/-- Settles O5: each formula is its sum shifted by the floor and clamped; in the legacy one the two G terms add up. -/
theorem matrixFormulas : Obligations.MatrixFormulas := by
  unfold Obligations.MatrixFormulas
  refine ⟨by decide, fun r g b => ⟨clip8_asr_add_eq .., clip8_asr_add_eq .., clip8_asr_add_eq .., ?_⟩⟩
  have hsum : vLegacySum r g = r * 112 + g * (-112) + 128 := by
    unfold vLegacySum
    omega
  rw [← hsum]
  exact clip8_asr_add_eq ..

/-- Settles O6: the corner extremes of each sum lie within its studio range; legacy V is V with B = G. -/
theorem studioRange : Obligations.StudioRange := by
  unfold Obligations.StudioRange
  intro r g b
  have hy := ySum_range r g b
  have hu := uSum_range r g b
  have hv := vSum_range r g b
  have hl := vSum_range r g g
  obtain ⟨hY, hYclamp⟩ := studio_of_sum hy 16 235 (by decide) (by decide) (by decide)
  obtain ⟨hU, hUclamp⟩ := studio_of_sum hu 128 240 (by decide) (by decide) (by decide)
  obtain ⟨hV, hVclamp⟩ := studio_of_sum hv 128 240 (by decide) (by decide) (by decide)
  obtain ⟨hL, hLclamp⟩ := studio_of_sum hl 128 240 (by decide) (by decide) (by decide)
  exact ⟨hY, hU, hV, hL, hYclamp, hUclamp, hVclamp, hLclamp, hy, hu, hv, hl⟩

/-- Settles O7: the bounds of the four sums lie within R109's. -/
theorem sumsFitSigned32 : Obligations.SumsFitSigned32 := by
  unfold Obligations.SumsFitSigned32
  rintro r g b x (rfl | rfl | rfl | rfl)
  · have := ySum_range r g b
    omega
  · have := uSum_range r g b
    omega
  · have := vSum_range r g b
    omega
  · have := vSum_range r g g
    rw [vLegacySum_eq_vSum]
    omega

/-- Settles O8: legacy V is V with B = G, so that the sums differ in their B term alone. -/
theorem vSelection : Obligations.VSelection := by
  unfold Obligations.VSelection
  refine ⟨fun r g b => ⟨rfl, rfl, ?_, ?_⟩, by decide⟩
  · unfold vLegacySum vSum
    omega
  · rintro rfl
    exact cscVLegacy_eq_cscV r g
end

section
/-! PROOFS. The pixel unit of an RGB job, said alike for both packings: what it computes from its pixel's three channel
bytes, where it stores that, and the frame a whole job leaves (spec 40_rgb_to_yuv.md R110, R111, R120 to R127). -/

namespace Sys2Proof.Machine

/-! ### The writes of a pixel -/

/-- The job converts RGB pixels of `bpp` bytes (20_memory.md R52, R53). -/
def Job.IsRgb (j : Job) (bpp : Nat) : Prop := j.op = .rgb32 ∧ bpp = 4 ∨ j.op = .rgb24 ∧ bpp = 3

/-- Byte `c` of a pixel as a number: B, G, R for `c` = 0, 1, 2. -/
def pixelByte (m : Memory) (j : Job) (bpp : Nat) (u : WorkUnit) (c : Nat) : Int :=
  channel (Cells.read m (pixelAddr j bpp u + c))

theorem Job.IsRgb.op {j : Job} {bpp : Nat} (h : j.IsRgb bpp) : j.op = .rgb32 ∨ j.op = .rgb24 := h.imp And.left And.left

/-- Both packings compute the same of their channel bytes (R120, R125). -/
theorem unitWrites_of_rgb {j : Job} {bpp : Nat} (h : j.IsRgb bpp) (m : Memory) (u : WorkUnit) :
    unitWrites m j u = rgbWrites j u (pixelByte m j bpp u 2) (pixelByte m j bpp u 1) (pixelByte m j bpp u 0) := by
  unfold unitWrites
  rcases h with ⟨hop, rfl⟩ | ⟨hop, rfl⟩ <;> rw [hop] <;> rfl

/-- An RGB unit looks at its three channel bytes alone, of whatever packing, and at where its job stores. -/
theorem unitWrites_rgb_congr {j j' : Job} {bpp bpp' : Nat} (h : j.IsRgb bpp) (h' : j'.IsRgb bpp') {m m' : Memory}
    {u : WorkUnit} (hw : rgbWrites j' u = rgbWrites j u)
    (hread : ∀ c, c < 3 → Cells.read m (pixelAddr j bpp u + c) = Cells.read m' (pixelAddr j' bpp' u + c)) :
    unitWrites m j u = unitWrites m' j' u := by
  have hbyte {c : Nat} (hc : c < 3) : pixelByte m j bpp u c = pixelByte m' j' bpp' u c := congrArg channel (hread c hc)
  rw [unitWrites_of_rgb h, unitWrites_of_rgb h', hw, hbyte (by decide : 0 < 3), hbyte (by decide : 1 < 3),
    hbyte (by decide : 2 < 3)]

/-- The memory a pixel's writes leave. -/
theorem storeAll_rgbWrites (m : Memory) (j : Job) (u : WorkUnit) (r g b : Int) :
    storeAll m (rgbWrites j u r g b) =
      if u.row % 2 = 0 ∧ u.col % 2 = 0 then
        Cells.write (Cells.write (Cells.write m (rgbYAddr j u) (sample (cscY r g b)))
          (rgbChromaAddr j j.u u) (sample (cscU r g b))) (rgbChromaAddr j j.v u) (sample (cscVSel j.legacy r g b))
      else Cells.write m (rgbYAddr j u) (sample (cscY r g b)) := by
  by_cases hc : u.row % 2 = 0 ∧ u.col % 2 = 0
  · simp [rgbWrites, carriesChroma, storeAll, hc]
  · have hno : carriesChroma u = false := by simpa [carriesChroma] using hc
    simp [rgbWrites, storeAll, hno, hc]

theorem luma_mem_rgbWrites (j : Job) (u : WorkUnit) (r g b : Int) :
    (rgbYAddr j u, sample (cscY r g b)) ∈ rgbWrites j u r g b := by
  unfold rgbWrites
  split <;> simp

/-- The top-left pixel of a 2×2 block stores both chroma samples (R110). -/
theorem chroma_mem_rgbWrites {u : WorkUnit} (hc : carriesChroma u = true) (j : Job) (r g b : Int) :
    (rgbChromaAddr j j.u u, sample (cscU r g b)) ∈ rgbWrites j u r g b ∧
      (rgbChromaAddr j j.v u, sample (cscVSel j.legacy r g b)) ∈ rgbWrites j u r g b := by
  simp [rgbWrites, hc]

/-! ### One turn of a running job -/

/-- The engine turn that takes unit `u` of an untainted RGB job stores its pixel's writes, and nothing else changes. -/
theorem engineStep_rgb {s : State} {j : Job} {bpp k : Nat} {u : WorkUnit} (hi : s.Inv) (hj : s.job = some j)
    (h : j.IsRgb bpp) (ht : s.tainted = false) (hu : s.pending[k % s.pending.length]? = some u) :
    engineStep k s = .next { s with
      pending := s.pending.eraseIdx (k % s.pending.length)
      mem := storeAll s.mem
        (rgbWrites j u (pixelByte s.mem j bpp u 2) (pixelByte s.mem j bpp u 1) (pixelByte s.mem j bpp u 0)) } := by
  obtain ⟨u', hu', hstep⟩ := engineStep_performs hj (hi.busy_of_job hj) (hi.checked j hj) (hi.pendingUnits j hj)
    (List.ne_nil_of_mem (mem_of_taken hu)) k
  obtain rfl := Option.some.inj (hu.symm.trans hu')
  rw [hstep, ← unitWrites_of_rgb h]
  simp [performUnit, ht]

/-- An engine turn with a unit to take answers only by performing it. -/
theorem engineStep_of_taken {s t : State} {j : Job} {k : Nat} {u : WorkUnit} (hj : s.job = some j)
    (hb : s.status.busy = true) (hu : s.pending[k % s.pending.length]? = some u) (h : engineStep k s = .next t) :
    t = performUnit j u { s with pending := s.pending.eraseIdx (k % s.pending.length) } := by
  rcases engineStep_cases h with ⟨hidle, -⟩ | ⟨_, -, -, hp, -⟩ | ⟨j', u', hj', -, hu', -, rfl⟩
  · simp [engineReady, hj, hb] at hidle
  · simp [hp] at hu
  · obtain rfl := Option.some.inj (hj.symm.trans hj')
    obtain rfl := Option.some.inj (hu.symm.trans hu')
    rfl

/-! ### Rows -/

/-- A unit reads bytes of its own row of pixels only. -/
theorem unitReads_inRow {p : Platform} {j : Job} {u : WorkUnit} {tight a : Nat} (hj : JobChecked p j)
    (hu : u ∈ j.units)
    (ht : j.op = .rgb32 ∧ tight = 4 * j.w ∨ j.op = .rgb24 ∧ tight = 3 * j.w ∨ j.op = .yuy2 ∧ tight = 2 * j.w)
    (ha : a ∈ unitReads j u) : j.src + u.row * j.rs ≤ a ∧ a < j.src + u.row * j.rs + tight := by
  have hw := hj.evenWidth
  obtain ⟨-, hcol⟩ := mem_units.mp hu
  rcases ht with ⟨hop, rfl⟩ | ⟨hop, rfl⟩ | ⟨hop, rfl⟩ <;> simp only [unitReads, hop] at ha
  · rw [Job.unitCols_of_rgb (.inl hop)] at hcol
    simp only [readsRgb32, pixelAddr, List.mem_cons, List.not_mem_nil, or_false] at ha
    omega
  · rw [Job.unitCols_of_rgb (.inr hop)] at hcol
    simp only [readsRgb24, pixelAddr, List.mem_cons, List.not_mem_nil, or_false] at ha
    omega
  · rw [Job.unitCols_of_yuy2 hop] at hcol
    have hs := hj.strides
    simp only [Job.stridesOk, hop] at hs
    have hmem : macroAddr j u ≤ a ∧ a ≤ macroAddr j u + 3 := by
      unfold readsYuy2 at ha
      split at ha <;> simp only [List.mem_cons, List.not_mem_nil, or_false] at ha <;> omega
    rw [macroAddr, ← hs.1] at hmem
    omega

/-- The luma samples of a unit lie in its row of the plane. -/
theorem storesLuma_inRow {j : Job} {u : WorkUnit} {a : Nat} (h : j.StoresLuma u a) :
    j.y + u.row * j.ys ≤ a ∧ a < j.y + u.row * j.ys + j.w := by
  obtain ⟨i, x, -, hx, rfl, rfl⟩ := h
  simp only [Job.unitAt]
  omega

/-- The chroma samples of a unit lie in the row of the plane that belongs to its own, even row. -/
theorem storesChroma_inRow {j : Job} {base a : Nat} {u : WorkUnit} (h : j.StoresChroma base u a) :
    u.row % 2 = 0 ∧ base + (u.row / 2) * j.uvs ≤ a ∧ a < base + (u.row / 2) * j.uvs + j.w / 2 := by
  obtain ⟨k, n, -, hn, rfl, rfl⟩ := h
  have hrow : (j.unitAt (2 * k) (2 * n)).row = 2 * k := rfl
  rw [hrow, Nat.mul_div_cancel_left k (by decide)]
  omega

/-- A channel byte of an RGB32 pixel is no pixel's unused byte: rows do not overlap, and within a row the two differ
modulo 4 (R121). -/
theorem channelAddr_ne_unusedAddr {p : Platform} {j : Job} {u : WorkUnit} (hj : JobChecked p j) (hop : j.op = .rgb32)
    (hu : u ∈ j.units) {c i x : Nat} (hc : c < 3) (hx : x < j.w) :
    pixelAddr j 4 u + c ≠ j.src + i * j.rs + 4 * x + 3 := by
  intro heq
  have hs := hj.strides
  simp only [Job.stridesOk, hop] at hs
  rw [mem_units, Job.unitCols_of_rgb (.inl hop)] at hu
  have hplace : u.row * j.rs + (4 * u.col + c) = i * j.rs + (4 * x + 3) := by
    rw [pixelAddr] at heq
    omega
  have := (rowCol_inj hs.1 (by omega) (by omega) hplace).2
  omega

/-! ### The frame a job leaves -/

section
variable {j : Job} {bpp : Nat} {m0 m : Memory}

theorem Converted.luma (hm : Converted m0 j m) (h : j.IsRgb bpp) {u : WorkUnit} (hu : u ∈ j.units) :
    Cells.read m (rgbYAddr j u) =
      sample (cscY (pixelByte m0 j bpp u 2) (pixelByte m0 j bpp u 1) (pixelByte m0 j bpp u 0)) :=
  hm.results u hu _ (unitWrites_of_rgb h m0 u ▸ luma_mem_rgbWrites ..)

theorem Converted.chroma (hm : Converted m0 j m) (h : j.IsRgb bpp) {u : WorkUnit} (hu : u ∈ j.units)
    (hc : carriesChroma u = true) :
    Cells.read m (rgbChromaAddr j j.u u) =
        sample (cscU (pixelByte m0 j bpp u 2) (pixelByte m0 j bpp u 1) (pixelByte m0 j bpp u 0)) ∧
      Cells.read m (rgbChromaAddr j j.v u) =
        sample (cscVSel j.legacy (pixelByte m0 j bpp u 2) (pixelByte m0 j bpp u 1) (pixelByte m0 j bpp u 0)) := by
  have hmem := chroma_mem_rgbWrites hc j (pixelByte m0 j bpp u 2) (pixelByte m0 j bpp u 1) (pixelByte m0 j bpp u 0)
  rw [← unitWrites_of_rgb h] at hmem
  exact ⟨hm.results u hu _ hmem.1, hm.results u hu _ hmem.2⟩

end

end Sys2Proof.Machine

open Sys2Proof.Machine

/-- Settles O33: in any order the run ends in the memory that holds every unit's results; the unit of pixel `(i, x)`
gives its Y sample, and that of pixel `(2k, 2m)` the U and V samples of its block. -/
theorem rgbFrameConverted : Obligations.RgbFrameConverted := by
  unfold Obligations.RgbFrameConverted
  intro j s ks bpp px h (hfmt : j.IsRgb bpp) hs hlen hpx
  obtain ⟨mem, hm, hrun⟩ := h.run_completes hs hlen
  have hmem {i x : Nat} (hi : i < j.h) (hx : x < j.w) : { row := i, col := x } ∈ j.units := by
    rw [mem_units, Job.unitCols_of_rgb hfmt.op]
    exact ⟨hi, hx⟩
  have hbyte (c i x : Nat) : pixelByte s.mem j bpp { row := i, col := x } c = px c i x := (hpx c i x).symm
  refine ⟨_, hrun, fun i x hi hx => ?_, fun k m hk hn => ?_, hm.frame⟩
  · have hy := hm.luma hfmt (hmem hi hx)
    rwa [hbyte, hbyte, hbyte] at hy
  · have huv := hm.chroma hfmt (hmem (i := 2 * k) (x := 2 * m) (by omega) (by omega)) (by simp [carriesChroma])
    simp only [hbyte, rgbChromaAddr, Nat.mul_div_cancel_left _ (by decide : 0 < 2)] at huv
    exact huv

/-- Settles O22: the turn stores the writes of the taken pixel, read at 4 bytes a pixel. -/
theorem rgb32UnitEffect : Obligations.Rgb32UnitEffect := by
  unfold Obligations.Rgb32UnitEffect
  rintro s j k u _ _ _ _ hi hj hop ht hu rfl rfl rfl rfl
  rw [engineStep_rgb hi hj (.inl ⟨hop, rfl⟩) ht hu, storeAll_rgbWrites]
  rfl

/-- Settles O23: the turn stores the writes of the taken pixel, read at 3 bytes a pixel. -/
theorem rgb24UnitEffect : Obligations.Rgb24UnitEffect := by
  unfold Obligations.Rgb24UnitEffect
  rintro s j k u _ _ _ _ hi hj hop ht hu rfl rfl rfl rfl
  rw [engineStep_rgb hi hj (.inr ⟨hop, rfl⟩) ht hu, storeAll_rgbWrites]
  rfl

/-- Settles O25: the turn performs the unit, whose stores, of computed or of free values, go to the addresses of
`unitWrites`. -/
theorem unitFrame : Obligations.UnitFrame := by
  unfold Obligations.UnitFrame
  intro s t j k u hwf hj hb hu hstep
  obtain rfl := engineStep_of_taken hj hb hu hstep
  obtain ⟨ws, haddrs, -, hmem⟩ := performUnit_mem j u { s with pending := s.pending.eraseIdx (k % s.pending.length) }
  refine ⟨performUnit_params .., performUnit_status .., performUnit_job .., performUnit_fault .., performUnit_hosts ..,
    performUnit_plat .., performUnit_sched .., performUnit_tainted .., performUnit_pending .., fun a ha => ?_⟩
  rw [hmem]
  exact read_storeAll_frame hwf (haddrs ▸ ha)

/-- Settles O28: the unused byte is among the bytes read, and the three channel bytes, which alone count, are no pixel's
unused byte. -/
theorem unusedByteIrrelevant : Obligations.UnusedByteIrrelevant := by
  unfold Obligations.UnusedByteIrrelevant
  intro p j m m' u hj hop hu
  have hread : j.src + u.row * j.rs + 4 * u.col + 3 ∈ unitReads j u := by
    simp [unitReads, hop, readsRgb32, pixelAddr]
  refine ⟨⟨hread, unitReads_inSrc hj hu hread⟩, fun hsame => ?_⟩
  exact unitWrites_rgb_congr (.inl ⟨hop, rfl⟩) (.inl ⟨hop, rfl⟩) rfl fun c hc =>
    hsame _ fun i x _ hx => channelAddr_ne_unusedAddr hj hop hu hc hx

/-- Settles O29: a unit reads its own row of pixels, and its samples lie in the rows of the planes that belong to it. -/
theorem rowLocality : Obligations.RowLocality := by
  unfold Obligations.RowLocality
  intro p j m m' u tight hj hu ht
  refine ⟨fun hrow => unitWrites_congr fun a ha => ?_, fun a ha => ?_⟩
  · obtain ⟨hlo, hhi⟩ := unitReads_inRow hj hu ht ha
    exact hrow a hlo hhi
  · exact ((mem_unitWrites_addrs hj hu m).mp ha).imp storesLuma_inRow (Or.imp storesChroma_inRow storesChroma_inRow)

/-- Settles O30: with the same destinations and the same L the units of both packings store the same of equal channel
bytes. -/
theorem rgb24AgreesWithRgb32 : Obligations.Rgb24AgreesWithRgb32 := by
  unfold Obligations.Rgb24AgreesWithRgb32
  intro j j' m m' u hop hop' hl hy hu hv hys huvs hread
  have hw : rgbWrites j' u = rgbWrites j u := by
    funext r g b
    simp only [rgbWrites, rgbYAddr, rgbChromaAddr, hl, hy, hu, hv, hys, huvs]
  exact unitWrites_rgb_congr (.inl ⟨hop, rfl⟩) (.inr ⟨hop', rfl⟩) hw hread
end

section
/-! PROOFS. The macropixel unit of a YUY2 job: the bytes it copies and where to, and the frame a whole job leaves (spec
41_yuy2_to_yuv.md R140 to R147). -/

namespace Sys2Proof.Machine

/-! ### The writes of a macropixel -/

theorem unitWrites_of_yuy2 {j : Job} (h : j.op = .yuy2) (m : Memory) (u : WorkUnit) :
    unitWrites m j u = unitYuy2 m j u := by
  unfold unitWrites
  rw [h]

/-- The memory a macropixel's writes leave (R140, R142). -/
theorem storeAll_unitYuy2 (m m' : Memory) (j : Job) (u : WorkUnit) :
    storeAll m (unitYuy2 m' j u) =
      if u.row % 2 = 0 then
        Cells.write (Cells.write
          (Cells.write (Cells.write m (yuy2YAddr j u) (Cells.read m' (macroAddr j u)))
            (yuy2YAddr j u + 1) (Cells.read m' (macroAddr j u + 2)))
          (yuy2ChromaAddr j j.u u) (Cells.read m' (macroAddr j u + 1)))
          (yuy2ChromaAddr j j.v u) (Cells.read m' (macroAddr j u + 3))
      else
        Cells.write (Cells.write m (yuy2YAddr j u) (Cells.read m' (macroAddr j u)))
          (yuy2YAddr j u + 1) (Cells.read m' (macroAddr j u + 2)) := by
  by_cases hrow : u.row % 2 = 0 <;> simp [unitYuy2, chromaRow, storeAll, hrow]

/-- The two luma bytes of a macropixel, every second byte of the four, are copied in every row. -/
theorem luma_mem_unitYuy2 (m : Memory) (j : Job) (u : WorkUnit) {c : Nat} (hc : c < 2) :
    (yuy2YAddr j u + c, Cells.read m (macroAddr j u + 2 * c)) ∈ unitYuy2 m j u := by
  obtain rfl | rfl : c = 0 ∨ c = 1 := by omega
  all_goals
    unfold unitYuy2
    split <;> simp

/-- The two chroma bytes of a macropixel are copied in even rows (R142). -/
theorem chroma_mem_unitYuy2 {u : WorkUnit} (hc : chromaRow u = true) (m : Memory) (j : Job) :
    (yuy2ChromaAddr j j.u u, Cells.read m (macroAddr j u + 1)) ∈ unitYuy2 m j u ∧
      (yuy2ChromaAddr j j.v u, Cells.read m (macroAddr j u + 3)) ∈ unitYuy2 m j u := by
  simp [unitYuy2, hc]

/-! ### One turn of a running job -/

/-- The engine turn that takes unit `u` of an untainted job stores its writes, and nothing else changes. -/
theorem engineStep_untainted {s : State} {j : Job} {k : Nat} {u : WorkUnit} (hi : s.Inv) (hj : s.job = some j)
    (ht : s.tainted = false) (hu : s.pending[k % s.pending.length]? = some u) :
    engineStep k s = .next { s with
      pending := s.pending.eraseIdx (k % s.pending.length)
      mem := storeAll s.mem (unitWrites s.mem j u) } := by
  obtain ⟨u', hu', hstep⟩ := engineStep_performs hj (hi.busy_of_job hj) (hi.checked j hj) (hi.pendingUnits j hj)
    (List.ne_nil_of_mem (mem_of_taken hu)) k
  obtain rfl := Option.some.inj (hu.symm.trans hu')
  rw [hstep]
  simp [performUnit, ht]

/-! ### The frame a job leaves -/

section
variable {j : Job} {m0 m : Memory}

/-- Y is the straight de-interleave of the source (R140, R147). -/
theorem Converted.yuy2_luma {p : Platform} (hm : Converted m0 j m) (hj : JobChecked p j) (hop : j.op = .yuy2)
    {i x : Nat} (hi : i < j.h) (hx : x < j.w) :
    Cells.read m (j.y + i * j.w + x) = Cells.read m0 (j.src + i * (2 * j.w) + 2 * x) := by
  have hu := hj.unitAt_mem hi hx
  rw [Job.unitAt_of_yuy2 hop] at hu
  have hmem := luma_mem_unitYuy2 m0 j { row := i, col := x / 2 } (Nat.mod_lt x (by decide : 0 < 2))
  rw [← unitWrites_of_yuy2 hop] at hmem
  have hy := hm.results _ hu _ hmem
  have hdst : j.y + i * j.w + 2 * (x / 2) + x % 2 = j.y + i * j.w + x := by omega
  have hsrc : j.src + i * (2 * j.w) + 4 * (x / 2) + 2 * (x % 2) = j.src + i * (2 * j.w) + 2 * x := by omega
  rwa [yuy2YAddr, macroAddr, hdst, hsrc] at hy

/-- U and V are the chroma of the even rows (R142, R145, R147). -/
theorem Converted.yuy2_chroma (hm : Converted m0 j m) (hop : j.op = .yuy2) {k n : Nat}
    (hk : k < j.h / 2) (hn : n < j.w / 2) :
    Cells.read m (j.u + k * (j.w / 2) + n) = Cells.read m0 (j.src + (2 * k) * (2 * j.w) + 4 * n + 1) ∧
      Cells.read m (j.v + k * (j.w / 2) + n) = Cells.read m0 (j.src + (2 * k) * (2 * j.w) + 4 * n + 3) := by
  have hrow : 2 * k < j.h := by omega
  have hu : { row := 2 * k, col := n } ∈ j.units := by
    rw [mem_units, Job.unitCols_of_yuy2 hop]
    exact ⟨hrow, hn⟩
  have hmem := chroma_mem_unitYuy2 (u := { row := 2 * k, col := n }) (by simp [chromaRow]) m0 j
  rw [← unitWrites_of_yuy2 hop] at hmem
  have huv := And.intro (hm.results _ hu _ hmem.1) (hm.results _ hu _ hmem.2)
  simpa only [yuy2ChromaAddr, macroAddr, Nat.mul_div_cancel_left k (by decide : 0 < 2)] using huv

end

end Sys2Proof.Machine

open Sys2Proof.Machine

/-- Settles O24: the turn stores the writes of the taken macropixel. -/
theorem yuy2UnitEffect : Obligations.Yuy2UnitEffect := by
  unfold Obligations.Yuy2UnitEffect
  rintro s j k u _ _ hi hj hop ht hu rfl rfl
  rw [engineStep_untainted hi hj ht hu, unitWrites_of_yuy2 hop, storeAll_unitYuy2]
  rfl

/-- Settles O34: in any order the run ends in the memory that holds every macropixel's results; that of pixel `(i, x)`
gives its Y sample, and macropixel `m` of row `2k` the chroma samples of its place. -/
theorem yuy2FrameUnpacked : Obligations.Yuy2FrameUnpacked := by
  unfold Obligations.Yuy2FrameUnpacked
  intro j s ks h hop hs hlen
  obtain ⟨mem, hm, hrun⟩ := h.run_completes hs hlen
  exact ⟨_, hrun, fun i x => hm.yuy2_luma h.checked hop, fun k m => hm.yuy2_chroma hop, hm.frame⟩
end

section
/-! PROOFS. Acceptance and refusal of a command written while idle: the outcome that each check of spec
60_exceptions.md R160 decides, in the order of R171, with the job it starts or the error it raises (R162 to R170). -/

namespace Sys2Proof.Machine

/-! ### The checks, in the registers' signed values and the footprint sets -/

theorem dimsLegal_eq_false_iff {p : Params} : dimsLegal p = false ↔
    p.width.toInt < 0 ∨ p.height.toInt < 0 ∨ p.width.toInt % 2 ≠ 0 ∨ p.height.toInt % 2 ≠ 0 := by
  rw [← Bool.not_eq_true, dimsLegal_iff]
  omega

/-- The stride check of the RGB operations, at `bpp` bytes a source pixel (R166). -/
theorem stridesLegal_rgb_iff {op : Op} {bpp : Int} (h : op = .rgb32 ∧ bpp = 4 ∨ op = .rgb24 ∧ bpp = 3) {p : Params} :
    stridesLegal op p = true ↔ bpp * p.width.toInt ≤ p.rgbStride.toInt ∧ p.width.toInt ≤ p.yStride.toInt ∧
      p.width.toInt / 2 ≤ p.uvStride.toInt := by
  rcases h with ⟨rfl, rfl⟩ | ⟨rfl, rfl⟩ <;>
    simp only [stridesLegal, Bool.and_eq_true, decide_eq_true_eq, and_assoc]

theorem rangeLegal_eq_false_iff {p : Platform} {j : Job} :
    rangeLegal p j = false ↔ ∃ a, (j.InSrcFP a ∨ j.InDstFP a) ∧ memOk p a = false := by
  simp only [← Bool.not_eq_true, rangeLegal_iff, Job.AllMemOk, not_forall, exists_prop]

theorem planesDisjoint_eq_false_iff {j : Job} : planesDisjoint j = false ↔ j.SharesByte := by
  rw [← Bool.not_eq_true, planesDisjoint_iff, not_not]

/-! ### The handling of a command word, by the first check that fails -/

section
variable {op : Op} {l : Bool} {s : State} (hb : s.status.busy = false)
include hb

theorem commandWrite_of_dims (hd : dimsLegal s.params = false) :
    commandWrite op l s = refuseCommand (acceptCommand s) .preDim .errDim := by
  simp [commandWrite, hb, hd]

theorem commandWrite_of_strides (hd : dimsLegal s.params = true) (hs : stridesLegal op s.params = false) :
    commandWrite op l s = refuseCommand (acceptCommand s) .preStride .errStride := by
  simp [commandWrite, hb, hd, hs]

theorem commandWrite_of_range (hd : dimsLegal s.params = true) (hs : stridesLegal op s.params = true)
    (hr : rangeLegal s.plat (candidateJob op l s.params) = false) :
    commandWrite op l s = refuseCommand (acceptCommand s) .preRange .errRange := by
  simp [commandWrite, hb, hd, hs, hr]

theorem commandWrite_of_sharesByte (hd : dimsLegal s.params = true) (hs : stridesLegal op s.params = true)
    (hm : (candidateJob op l s.params).AllMemOk s.plat) (ha : (candidateJob op l s.params).SharesByte) :
    commandWrite op l s = refuseCommand (acceptCommand s) .preAlias .errAlias := by
  simp [commandWrite, hb, hd, hs, rangeLegal_iff.mpr hm, planesDisjoint_eq_false_iff.mpr ha]

/-- A command that passes every check starts its candidate job. -/
theorem commandWrite_of_checks (hd : dimsLegal s.params = true) (hs : stridesLegal op s.params = true)
    (hm : (candidateJob op l s.params).AllMemOk s.plat) (ha : ¬ (candidateJob op l s.params).SharesByte) :
    commandWrite op l s = startJob (candidateJob op l s.params) (acceptCommand s) := by
  simp [commandWrite, hb, hd, hs, rangeLegal_iff.mpr hm, planesDisjoint_iff.mpr ha]

end

/-- A precondition refusal: STATUS is ERR with its code alone, an empty fault record takes the reason, and nothing else
changes (R162, R169). -/
theorem exec_refused {i : Instr} {s : State} {r : FaultReason} {c : ErrCode}
    (h : commandWrite i.op i.legacyBit s = refuseCommand (acceptCommand s) r c) :
    ∃ t, exec i s = .next t ∧
      t.status = { busy := false, done := false, err := true, ovr := false, errCode := c.toBits } ∧
      (s.fault = none → t.fault = some r) ∧ t = { s with status := t.status, fault := t.fault } := by
  refine ⟨refuseCommand (acceptCommand s) r c, by rw [exec_eq, h], rfl, fun hf => ?_, rfl⟩
  simp [hf, keepFirstFault]

/-! ### The job that starts -/

section
variable {p : Params} {w h : Nat} (hw : p.width.toInt = w) (hh : p.height.toInt = h)
include hw hh

theorem dimsLegal_of_even (hw2 : w % 2 = 0) (hh2 : h % 2 = 0) : dimsLegal p = true :=
  dimsLegal_iff.mpr (by omega)

/-- The candidate job of an RGB command, its parameters read as numbers (R33). -/
theorem candidateJob_of_rgb {op : Op} (hop : op = .rgb32 ∨ op = .rgb24) (l : Bool) {rs ys uvs : Nat}
    (hrs : p.rgbStride.toInt = rs) (hys : p.yStride.toInt = ys) (huvs : p.uvStride.toInt = uvs) :
    candidateJob op l p = { op := op, legacy := l, src := p.srcAddr.toNat, y := p.yAddr.toNat, u := p.uAddr.toNat,
                            v := p.vAddr.toNat, w := w, h := h, rs := rs, ys := ys, uvs := uvs } := by
  rcases hop with rfl | rfl <;> simp [candidateJob, hw, hh, hrs, hys, huvs]

/-- The candidate job of UNPACK.YUY2 has the tight strides (R141). -/
theorem candidateJob_of_yuy2 (l : Bool) :
    candidateJob .yuy2 l p = { op := .yuy2, legacy := l, src := p.srcAddr.toNat, y := p.yAddr.toNat,
                               u := p.uAddr.toNat, v := p.vAddr.toNat, w := w, h := h, rs := 2 * w, ys := w,
                               uvs := w / 2 } := by
  simp [candidateJob, hw, hh]

end

/-- The L field has no part in where the bytes of a job are. -/
theorem candidateJob_allMemOk (op : Op) (l l' : Bool) (p : Params) (q : Platform) :
    (candidateJob op l p).AllMemOk q ↔ (candidateJob op l' p).AllMemOk q := Iff.rfl

theorem candidateJob_sharesByte (op : Op) (l l' : Bool) (p : Params) :
    (candidateJob op l p).SharesByte ↔ (candidateJob op l' p).SharesByte := Iff.rfl

/-- An RGB command starts its job when every check passes, with L = 0 and with L = 1. -/
theorem commandWrite_rgb {op : Op} {bpp : Int} (hop : op = .rgb32 ∧ bpp = 4 ∨ op = .rgb24 ∧ bpp = 3) {s : State}
    (hb : s.status.busy = false) (hd : dimsLegal s.params = true)
    (hs : bpp * s.params.width.toInt ≤ s.params.rgbStride.toInt ∧ s.params.width.toInt ≤ s.params.yStride.toInt ∧
      s.params.width.toInt / 2 ≤ s.params.uvStride.toInt)
    {j : Bool → Job} (hj : ∀ l, candidateJob op l s.params = j l) (hm : (j false).AllMemOk s.plat)
    (ha : ¬ (j false).SharesByte) (l : Bool) : commandWrite op l s = startJob (j l) (acceptCommand s) := by
  rw [← hj] at hm ha ⊢
  exact commandWrite_of_checks hb hd ((stridesLegal_rgb_iff hop).mpr hs)
    ((candidateJob_allMemOk op l false _ _).mpr hm) (mt (candidateJob_sharesByte op l false _).mp ha)

/-! ### Jobs of size zero (R170) -/

theorem Job.units_eq_nil {j : Job} (h : j.w = 0 ∨ j.h = 0) : j.units = [] := by
  refine List.eq_nil_iff_forall_not_mem.mpr fun u hu => ?_
  rw [mem_units, Job.unitCols] at hu
  split at hu <;> omega

theorem Job.footprints_empty {j : Job} (h : j.w = 0 ∨ j.h = 0) (a : Nat) :
    ¬ j.InSrcFP a ∧ ¬ j.InYFP a ∧ ∀ base, ¬ j.InChromaFP base a := by
  unfold Job.InSrcFP Job.InYFP Job.InChromaFP
  rcases h with h | h <;> cases j.op <;> simp [h, InRows]

theorem Job.allMemOk_of_empty {j : Job} (h : j.w = 0 ∨ j.h = 0) (p : Platform) : j.AllMemOk p := by
  intro a ha
  simp [Job.InDstFP, Job.footprints_empty h a] at ha

theorem Job.not_sharesByte_of_empty {j : Job} (h : j.w = 0 ∨ j.h = 0) : ¬ j.SharesByte := by
  rintro ⟨a, ha⟩
  simp [Job.footprints_empty h a] at ha

/-- A command of size zero starts a job without units, which any engine turn completes. -/
theorem exec_zeroSize {i : Instr} {s : State} (hb : s.status.busy = false) (hd : dimsLegal s.params = true)
    (h0 : s.params.width = 0 ∨ s.params.height = 0) (hs : stridesLegal i.op s.params = true) :
    ∃ j, exec i s = .next (startJob j (acceptCommand s)) ∧ j.units = [] ∧
      ∀ k, engineStep k (startJob j (acceptCommand s)) = .next (completeJob (startJob j (acceptCommand s))) := by
  have hj : (candidateJob i.op i.legacyBit s.params).w = 0 ∨ (candidateJob i.op i.legacyBit s.params).h = 0 :=
    h0.imp (fun h => by simp [candidateJob, h]) (fun h => by simp [candidateJob, h])
  have hunits := Job.units_eq_nil hj
  refine ⟨candidateJob i.op i.legacyBit s.params, ?_, hunits, engineStep_completes rfl rfl hunits⟩
  rw [exec_eq, commandWrite_of_checks hb hd hs (Job.allMemOk_of_empty hj _) (Job.not_sharesByte_of_empty hj)]

/-- The reset values are legal operands of every command (10_state.md R39, R195 of 70_reset_and_hazards.md). -/
theorem atReset_legal (op : Op) : dimsLegal Params.atReset = true ∧ stridesLegal op Params.atReset = true := by
  cases op <;> decide

/-! ### Reserved words (R164) -/

theorem cmdWrite_reserved {w : Word} {s : State} (hw : decode w = none) (hb : s.status.busy = false) :
    cmdWrite w s = .next (raiseError (acceptCommand s) .errCmd) := by
  simp [cmdWrite, hw, refuseReserved, hb]

end Sys2Proof.Machine

open Sys2Proof Sys2Proof.Machine

/-- Settles O9: with 4 bytes a source pixel every check passes, and L changes no footprint. -/
theorem rgb32Starts : Obligations.Rgb32Starts := by
  unfold Obligations.Rgb32Starts
  intro s w h rs ys uvs j hb hw hh hw2 hh2 hrs hys huvs hrs4 hysw huvsw hj hm ha
  have hstart := commandWrite_rgb (.inl ⟨rfl, rfl⟩) hb (dimsLegal_of_even hw hh hw2 hh2) (by omega)
    (fun l => (candidateJob_of_rgb hw hh (.inl rfl) l hrs hys huvs).trans (hj l).symm) hm ha
  exact ⟨congrArg _ (hstart false), congrArg _ (hstart true)⟩

/-- Settles O10: the same with 3 bytes a source pixel. -/
theorem rgb24Starts : Obligations.Rgb24Starts := by
  unfold Obligations.Rgb24Starts
  intro s w h rs ys uvs j hb hw hh hw2 hh2 hrs hys huvs hrs3 hysw huvsw hj hm ha
  have hstart := commandWrite_rgb (.inr ⟨rfl, rfl⟩) hb (dimsLegal_of_even hw hh hw2 hh2) (by omega)
    (fun l => (candidateJob_of_rgb hw hh (.inr rfl) l hrs hys huvs).trans (hj l).symm) hm ha
  exact ⟨congrArg _ (hstart false), congrArg _ (hstart true)⟩

/-- Settles O11: the candidate job has the tight strides, and there is no stride to check. -/
theorem yuy2Starts : Obligations.Yuy2Starts := by
  unfold Obligations.Yuy2Starts
  intro s w h j hb hw hh hw2 hh2 hj hm ha
  obtain rfl : candidateJob .yuy2 false s.params = j := (candidateJob_of_yuy2 hw hh false).trans hj.symm
  exact congrArg _ (commandWrite_of_checks hb (dimsLegal_of_even hw hh hw2 hh2) rfl hm ha)

/-- Settles O13: the dimensions are the first check. -/
theorem dimensionRefusal : Obligations.DimensionRefusal := by
  unfold Obligations.DimensionRefusal
  exact fun i s hb h => exec_refused (commandWrite_of_dims hb (dimsLegal_eq_false_iff.mpr h))

/-- Settles O14: the strides are the second check, and UNPACK.YUY2 always passes it. -/
theorem strideRefusal : Obligations.StrideRefusal := by
  unfold Obligations.StrideRefusal
  constructor
  · intro i s bpp hb hw hh hw2 hh2 hi h
    have hop : i.op = .rgb32 ∧ bpp = 4 ∨ i.op = .rgb24 ∧ bpp = 3 := by
      rcases hi with ⟨rfl | rfl, rfl⟩ | ⟨rfl | rfl, rfl⟩ <;> simp [Instr.op]
    have hs : stridesLegal i.op s.params = false := by
      rw [← Bool.not_eq_true, stridesLegal_rgb_iff hop]
      omega
    exact exec_refused (commandWrite_of_strides hb (dimsLegal_iff.mpr ⟨⟨hw, hw2⟩, hh, hh2⟩) hs)
  · intro s t hb hexec
    obtain rfl : commandWrite .yuy2 false s = t := Host.Outcome.next.inj hexec
    rcases commandWrite_cases .yuy2 false s with ⟨hb', -⟩ | ⟨-, -, h⟩ | ⟨-, -, hs, -⟩ | ⟨-, -, -, -, h⟩ |
      ⟨-, -, -, -, -, h⟩ | ⟨-, -, -, -, -, h⟩
    · simp [hb] at hb'
    · simp [h, ErrCode.toBits]
    · cases hs
    · simp [h, ErrCode.toBits]
    · simp [h, ErrCode.toBits]
    · simp [h]

/-- Settles O15: a footprint byte without MEM_OK fails the third check, and MEM_OK ends at 2^32. -/
theorem rangeRefusal : Obligations.RangeRefusal := by
  unfold Obligations.RangeRefusal
  constructor
  · intro p a ha
    exact eq_false_of_ne_true fun h => absurd (lt_of_memOk h) (Nat.not_lt.mpr ha)
  · rintro i s _ hb hd rfl hs h
    exact exec_refused (commandWrite_of_range hb hd hs (rangeLegal_eq_false_iff.mpr h))

/-- Settles O16: a shared byte fails the last check. -/
theorem aliasRefusal : Obligations.AliasRefusal := by
  unfold Obligations.AliasRefusal
  rintro i s _ hb hd rfl hs hm ha
  exact exec_refused (commandWrite_of_sharesByte hb hd hs hm ha)

/-- Settles O20: without pixels the footprints are empty, so the last two checks pass, and there is no unit. -/
theorem zeroSizeJob : Obligations.ZeroSizeJob := by
  unfold Obligations.ZeroSizeJob
  constructor
  · intro i s k hb hd h0 hs
    obtain ⟨j, hexec, hunits, hend⟩ := exec_zeroSize hb hd h0 hs
    exact ⟨_, hexec, rfl, hunits, rfl, rfl, hend k⟩
  · intro i s
    obtain ⟨hd, hs⟩ := atReset_legal i.op
    obtain ⟨j, hexec, hunits, hend⟩ := exec_zeroSize (s := assertReset s) rfl hd (.inl rfl) hs
    exact ⟨_, hexec, rfl, hunits, rfl, rfl, fun k => ⟨_, hend k, rfl, rfl, rfl⟩⟩

/-- Settles O17: a reserved word does not decode, and only STATUS shows it. -/
theorem reservedWordRefusal : Obligations.ReservedWordRefusal := by
  unfold Obligations.ReservedWordRefusal
  exact fun w s hb h => cmdWrite_reserved (decode_eq_none_iff.mpr (wf_eq_false_iff.mpr h)) hb
end

section
/-! PROOFS. No error arises during a job, an idle machine keeps its state, and a host's write of a command word is that
command (spec 10_state.md R23; 20_memory.md R73; 60_exceptions.md R160, R172, R183). -/

namespace Sys2Proof.Machine

/-- The invariant excludes the engine's fault: every engine turn goes on (R172). -/
theorem State.Inv.engineStep_next {s : State} (hi : s.Inv) (k : Nat) : ∃ t, engineStep k s = .next t := by
  cases hj : s.job with
  | none => exact ⟨s, by simp [engineStep, hj]⟩
  | some j =>
    have hb := hi.busy_of_job hj
    by_cases hp : s.pending = []
    · exact ⟨_, engineStep_completes hj hb hp k⟩
    · obtain ⟨u, -, he⟩ := engineStep_performs hj hb (hi.checked j hj) (hi.pendingUnits j hj) hp k
      exact ⟨_, he⟩

/-- A script that has ended has no statement. -/
theorem HostAgent.current_eq_none_iff {h : HostAgent} : h.current = none ↔ h.prog.length ≤ h.pos :=
  List.getElem?_eq_none_iff

theorem firstReadyHost_eq_none {hosts : List HostAgent} (hh : ∀ h ∈ hosts, h.current = none) (k : Nat) :
    firstReadyHost k hosts = none := by
  induction hosts generalizing k with
  | nil => rfl
  | cons h rest ih =>
    obtain ⟨hc, hrest⟩ := List.forall_mem_cons.mp hh
    simp [firstReadyHost, hc, ih hrest]

end Sys2Proof.Machine

open Sys2Proof.Machine

/-- Settles O31: a pending unit belongs to a checked job, whose units stay inside the footprints that passed MEM_OK. -/
theorem noErrorDuringJob : Obligations.NoErrorDuringJob := by
  unfold Obligations.NoErrorDuringJob
  refine fun s hi => ⟨hi.engineStep_next, fun j hj u hu => ?_⟩
  have hc := hi.checked j hj
  have hunit := hi.pendingUnits j hj u hu
  have hok := rangeLegal_iff.mp hc.range
  refine ⟨fun a ha => ?_, fun a ha => ?_⟩
  · have hsrc := unitReads_inSrc hc hunit ha
    exact ⟨hsrc, hok a (.inl hsrc)⟩
  · have hdst := unitWrites_inDst hc hunit ha
    exact ⟨hdst, hok a (.inr hdst)⟩

/-- Settles O54: with nothing scheduled, the engine idle and every script at its end there is no turn to take. -/
theorem idleKeepsState : Obligations.IdleKeepsState := by
  unfold Obligations.IdleKeepsState
  intro s hb hs hh
  have hnone := firstReadyHost_eq_none (fun h hm => HostAgent.current_eq_none_iff.mpr (hh h hm)) 0
  simp [step, takeTurn, runTurn, engineReady, hs, hb, hnone]

/-- Settles O45: the turn is the host's write at offset 0, where a word that decodes has its command's meaning. -/
theorem stepRunsDecodedCommand : Obligations.StepRunsDecodedCommand := by
  unfold Obligations.StepRunsDecodedCommand
  intro s k h rest w i hs hk hc hw
  have hwrite : step s = cmdWrite w (withHost { s with sched := rest } k h.advance) :=
    (step_of_sched hs).trans (hostStep_wr (s := { s with sched := rest }) hk hc (by decide) (by decide))
  rw [hwrite, cmdWrite, hw]
  rfl
end

section
/-! PROOFS. What a running job is immune to: a word written to CMD while BUSY = 1 is lost and sets OVR, and a parameter
write does not touch the job's latched copy (spec 10_state.md R28, R33; 70_reset_and_hazards.md R202, R204). -/

namespace Sys2Proof.Machine

/-! ### Words written to CMD -/

section
variable {s : State} (hb : s.status.busy = true)
include hb

theorem commandWrite_of_busy (op : Op) (l : Bool) : commandWrite op l s = ignoreWhileBusy s := by
  simp [commandWrite, hb]

theorem refuseReserved_of_busy : refuseReserved s = ignoreWhileBusy s := by
  simp [refuseReserved, hb]

theorem exec_of_busy (i : Instr) : exec i s = .next (ignoreWhileBusy s) := by
  rw [exec_eq, commandWrite_of_busy hb]

theorem cmdWrite_of_busy (w : Word) : cmdWrite w s = .next (ignoreWhileBusy s) := by
  rcases cmdWrite_cases w s with ⟨i, -, h⟩ | ⟨-, h⟩
  · rw [h, exec_of_busy hb]
  · rw [h, refuseReserved_of_busy hb]

end

/-- OVR is not the engine's: neither a unit nor the completion step writes it (R28). -/
theorem engineStep_ovr {k : Nat} {s t : State} (h : engineStep k s = .next t) : t.status.ovr = s.status.ovr := by
  rcases engineStep_cases h with ⟨-, rfl⟩ | ⟨_, -, -, -, rfl⟩ | ⟨j, u, -, -, -, -, rfl⟩
  · rfl
  · rfl
  · rw [performUnit_status]

/-! ### Engine turns, by the state they are taken in -/

theorem engineStep_of_not_ready {s : State} (h : engineReady s = false) (k : Nat) : engineStep k s = .next s := by
  unfold engineStep
  cases hj : s.job with
  | none => rfl
  | some j =>
    have hb : s.status.busy = false := by simpa [engineReady, hj] using h
    simp [hb]

theorem engineStep_of_accessOk {s : State} {j : Job} {k : Nat} {u : WorkUnit} (hj : s.job = some j)
    (hb : s.status.busy = true) (hu : s.pending[k % s.pending.length]? = some u) (hok : unitAccessOk s j u = true) :
    engineStep k s = .next (performUnit j u { s with pending := s.pending.eraseIdx (k % s.pending.length) }) := by
  simp [engineStep, jobStep, hj, hb, hu, hok]

/-- A unit neither reads nor writes the parameter registers. -/
theorem performUnit_writeParam (j : Job) (u : WorkUnit) (s : State) (r : Reg) (v : Word) :
    performUnit j u (writeParam s r v) = writeParam (performUnit j u s) r v := by
  cases ht : s.tainted <;> simp [performUnit, writeParam, ht]

end Sys2Proof.Machine

open Sys2Proof.Machine

/-- Settles O18: `commandWrite` and `refuseReserved` test BUSY first, and the engine's updates of STATUS leave OVR. -/
theorem commandWhileBusyIgnored : Obligations.CommandWhileBusyIgnored := by
  unfold Obligations.CommandWhileBusyIgnored
  exact ⟨fun w _ hb => cmdWrite_of_busy hb w, fun i _ hb => exec_of_busy hb i, fun _ _ _ => engineStep_ovr⟩

/-- Settles O47: each of the three engine turns looks at the job, BUSY, the pending units, the platform and memory, none
of which a parameter write changes. -/
theorem parameterWriteWhileBusyHarmless : Obligations.ParameterWriteWhileBusyHarmless := by
  unfold Obligations.ParameterWriteWhileBusyHarmless
  intro s t k r v h
  rcases engineStep_cases h with ⟨hidle, rfl⟩ | ⟨j, hj, hb, hp, rfl⟩ | ⟨j, u, hj, hb, hu, hok, rfl⟩
  · exact engineStep_of_not_ready (s := writeParam t r v) hidle k
  · exact engineStep_completes (s := writeParam s r v) hj hb hp k
  · rw [← performUnit_writeParam]
    exact engineStep_of_accessOk (s := writeParam s r v) hj hb hu hok
end

section
/-! PROOFS. Host accesses to the footprints of a running job: a write is a hazard, a read finds the old or the final byte
(spec 70_reset_and_hazards.md R200, R201). -/

namespace Sys2Proof.Machine

/-- The footprints of a checked job lie in the 32-bit address space: their bytes passed MEM_OK (60_exceptions.md R167). -/
theorem JobChecked.lt_of_footprint {p : Platform} {j : Job} (hj : JobChecked p j) {a : Nat}
    (ha : j.InSrcFP a ∨ j.InDstFP a) : a < 2 ^ 32 :=
  lt_of_memOk (rangeLegal_iff.mp hj.range a ha)

/-- A host's store to a byte of the running footprints: the host moves on, and the hazard is recorded. -/
theorem hostStep_memWr_hazard {k a : Nat} {b : Byte} {s : State} {h : HostAgent} (hk : s.hosts[k]? = some h)
    (hc : h.current = some (.memWr a b)) (hw : inWindow s.plat a = false) (ha : a < 2 ^ 32)
    (hf : inRunningFootprint s a = true) : hostStep k s = .next (hazardWrite (withHost s k h.advance) a) := by
  have hf' : inRunningFootprint (withHost s k h.advance) a = true := hf
  rw [hostStep_of_current hk hc]
  simp only [hostStmt, hostMemWr, withHost_plat, hw, hf', Bool.false_eq_true, if_false, if_true,
    if_neg (Nat.not_le.mpr ha)]

/-- The temporary a byte is read into holds that byte, with zeros above it. -/
theorem toNat_read_setTemp_byte (h : HostAgent) (hwf : Cells.wf h.temps = true) (n : Nat) (b : Byte) :
    (Cells.read (h.setTemp n (b.setWidth 32)).temps n).toNat = b.toNat := by
  rw [read_setTemp h hwf, if_pos rfl, BitVec.toNat_setWidth_of_le (by decide)]

end Sys2Proof.Machine

open Sys2Proof.Machine

/-- Settles O48: the byte is in a running footprint, so the store is the hazard's, which writes that byte alone. -/
theorem hazardWriteRecorded : Obligations.HazardWriteRecorded := by
  unfold Obligations.HazardWriteRecorded
  intro s j k h a b hi hj hk hc ha hw
  have hf := (inRunningFootprint_iff (hi.busy_of_job hj) hj).mpr ha
  refine ⟨_, hostStep_memWr_hazard hk hc hw ((hi.checked j hj).lt_of_footprint ha) hf, rfl, fun hnone => ?_, rfl, rfl,
    rfl, rfl, fun a' ha' => ?_⟩
  · simp [hnone, keepFirstFault]
  · exact (Cells.read_write hi.memWf a a' _).trans (if_neg ha')

/-- Settles O50: the read returns the byte as it stands, and the job's progress says which that is. -/
theorem readWhileBusyOldOrFinal : Obligations.ReadWhileBusyOldOrFinal := by
  unfold Obligations.ReadWhileBusyOldOrFinal
  intro m0 s j k h a n hi hj ht hp hk hc hw ha
  have hwf := hi.tempsWf h (List.mem_of_getElem? hk)
  have hvalue := toNat_read_setTemp_byte h.advance hwf n (Cells.read s.mem a)
  refine ⟨_, hostStep_memRd hk hc hw ((hi.checked j hj).lt_of_footprint ha), rfl, rfl, fun n' hn' => ?_, fun hsrc => ?_,
    ?_⟩
  · exact (read_setTemp h.advance hwf n n' _).trans (if_neg hn')
  · rw [hvalue, hp.source a (covers_src.mpr hsrc)]
  · rintro u hu w hmem rfl
    rw [hvalue]
    exact ⟨fun hpend => by rw [hp.waiting u hpend w hmem], fun hdone => by rw [hp.performed u hu hdone w hmem]⟩
end

section
/-! PROOFS. The reset input during a job, and in the instant of a host access (spec 70_reset_and_hazards.md R190 to
R192). -/

namespace Sys2Proof.Machine

/-- The access is ordered first and the reset second (R192). -/
theorem hostThenReset_eq_next_iff {k : Nat} {s t : State} :
    hostThenReset k s = .next t ↔ ∃ u, hostStep k s = .next u ∧ t = assertReset u := by
  unfold hostThenReset
  cases hostStep k s <;> simp [eq_comm]

/-- Of a byte a unit stores to, memory holds the old value or the final one, as the unit is pending or not. -/
theorem Progress.final_or_old {m0 : Memory} {j : Job} {s : State} (h : Progress m0 j s) {u : WorkUnit}
    (hu : u ∈ j.units) {w : Nat × Byte} (hw : w ∈ unitWrites m0 j u) :
    Cells.read s.mem w.1 = w.2 ∨ Cells.read s.mem w.1 = Cells.read m0 w.1 := by
  by_cases hp : u ∈ s.pending
  · exact .inr (h.waiting u hp w hw)
  · exact .inl (h.performed u hu hp w hw)

end Sys2Proof.Machine

open Sys2Proof.Machine

/-- Settles O53: both turns are the host's, and the reset writes the listed fields of the state it leaves. -/
theorem resetAfterSimultaneousAccess : Obligations.ResetAfterSimultaneousAccess := by
  unfold Obligations.ResetAfterSimultaneousAccess
  intro s t k rest
  rw [step_of_sched rfl, step_of_sched rfl]
  exact hostThenReset_eq_next_iff

/-- Settles O39: the engine turns perform a unit each, and the reset leaves the memory they left. -/
theorem resetAbortsJob : Obligations.ResetAbortsJob := by
  unfold Obligations.ResetAbortsJob
  intro j s ks h hs hlen
  obtain ⟨t, hrun, hsched, hunits⟩ := h.running.run_units hs hlen
  have hreset : step t = .next (assertReset { t with sched := [] }) := step_of_sched hsched
  have hfault : t.fault = s.fault := by rw [hunits.state]
  exact ⟨_, (coreRun_add _ hrun).trans (run_next hreset), rfl, rfl, rfl, rfl, hfault,
    fun _ hu _ hw => hunits.running.progress.final_or_old hu hw, hunits.frame⟩
end
